-- ==== Sys2Proof/Word.lean ====
section
/-! DEFINITION. The widths of spec/00_scope.md R11: a byte, a word (`u32`), the length field (`u64`),
and the 4-bit fields of a control word. Nothing in this hardware is signed. -/

namespace Sys2Proof

/-- An unsigned integer 0..255 (R11). -/
abbrev Byte := BitVec 8

/-- A `u32` (R11); `+` on it wraps mod 2^32 (R12). -/
abbrev Word := BitVec 32

/-- The value of the 64-bit length field (R11, R84). -/
abbrev LenWord := BitVec 64

/-- A 4-bit field: OP or R of a control word (R65), or one hexadecimal digit (R64). -/
abbrev Nibble := BitVec 4

end Sys2Proof
end

