-- ==== Sys2Proof/Syntax.lean ====
section
/-! DEFINITION. The operations: one constructor per row of spec/opcode_table.json (R66, R67). The one operand a
control word carries is its 4-bit field R (R68). -/

namespace Sys2Proof

/-- One operation of the control sequencer (R66). -/
inductive Instr where
  /-- SEQ.START (R141): accept the host's start. -/
  | seqStart
  /-- PAD.COPY (R85): copy one message byte. -/
  | padCopy
  /-- PAD.TERM (R86): write the terminator. -/
  | padTerm
  /-- PAD.ZERO (R87): write one zero-fill byte. -/
  | padZero
  /-- PAD.LEN (R88): write byte `k` of the length field; legal `k` are 0..7 (R68). -/
  | padLen (k : Nibble)
  /-- CMP.INIT (R104): load the initial values. -/
  | cmpInit
  /-- WR.LOAD (R91): assemble one word. -/
  | wrLoad
  /-- CMP.ROUND (R107): Compressor round `r`, 0..15. -/
  | cmpRound (r : Nibble)
  /-- CMP.FFWD (R110): feed the word forward. -/
  | cmpFfwd
  /-- FIN.ROUND (R121): Finalizer round `r`, 0..15. -/
  | finRound (r : Nibble)
  /-- HEX.EMIT (R131): write the digest string. -/
  | hexEmit
  /-- SEQ.DONE (R142): end the run. -/
  | seqDone
  deriving DecidableEq, Repr

end Sys2Proof
end

