-- ==== Sys2Proof/WellFormed.lean ====
section
/-! DEFINITION. Which terms of `Instr` are operations of the hardware: the legal values of R (R68). -/

namespace Sys2Proof

/-- The legal values of the operand (R68): `k` of PAD.LEN is 0..7; a round index is any 4-bit value. -/
def Instr.wellFormed : Instr → Bool
  | .seqStart => true
  | .padCopy => true
  | .padTerm => true
  | .padZero => true
  | .padLen k => decide (k.toNat ≤ 7)
  | .cmpInit => true
  | .wrLoad => true
  | .cmpRound _ => true
  | .cmpFfwd => true
  | .finRound _ => true
  | .hexEmit => true
  | .seqDone => true

end Sys2Proof
end

