-- ==== Sys2Proof/Decode.lean ====
section
/-! DEFINITION. The control word CW8 (R65): OP in bits 7:4, R in bits 3:0. Decoding by R76, encoding by the
table of R67. The codes are the spec's own (D8). -/

namespace Sys2Proof

/-- Why a control word, or a sequence of bytes, names no operation (R70). -/
inductive DecodeError where
  /-- OP is 0xC, 0xD, 0xE or 0xF. -/
  | reservedOp (cw : BitVec 8)
  /-- OP names an operation, and R is not one of its legal values. -/
  | reservedIndex (cw : BitVec 8)
  /-- There is no byte to decode. -/
  | noControlWord
  deriving DecidableEq, Repr

/-- Bits 7:4 of a control word (R65). -/
def cwOp (cw : BitVec 8) : Nibble := cw.extractLsb' 4 4

/-- Bits 3:0 of a control word (R65). -/
def cwR (cw : BitVec 8) : Nibble := cw.extractLsb' 0 4

/-- The control word of the two fields (R65). -/
def controlWordOf (op r : Nibble) : BitVec 8 := op ++ r

/-- An operation without operand: legal only with R = 0 (R76). -/
def decodePlain (i : Instr) (cw : BitVec 8) : Except DecodeError Instr :=
  if cwR cw = 0 then .ok i else .error (.reservedIndex cw)

/-- The decoding rule R76. -/
def decode (cw : BitVec 8) : Except DecodeError Instr :=
  match (cwOp cw).toNat with
  | 0x0 => decodePlain .seqStart cw
  | 0x1 => decodePlain .padCopy cw
  | 0x2 => decodePlain .padTerm cw
  | 0x3 => decodePlain .padZero cw
  | 0x4 => if (cwR cw).toNat ≤ 7 then .ok (.padLen (cwR cw)) else .error (.reservedIndex cw)
  | 0x5 => decodePlain .cmpInit cw
  | 0x6 => decodePlain .wrLoad cw
  | 0x7 => .ok (.cmpRound (cwR cw))
  | 0x8 => decodePlain .cmpFfwd cw
  | 0x9 => .ok (.finRound (cwR cw))
  | 0xA => decodePlain .hexEmit cw
  | 0xB => decodePlain .seqDone cw
  | _ => .error (.reservedOp cw)

/-- The encoding of a trace is its control words, one byte each (R72): the first operation and the bytes
after it. Every control word has 8 bits, so no length is looked for (R71). -/
def decodeBytes : List Byte → Except DecodeError (Instr × List Byte)
  | [] => .error .noControlWord
  | cw :: rest =>
    match decode cw with
    | .ok i => .ok (i, rest)
    | .error e => .error e

/-- The operation map of R67. -/
def encode : Instr → BitVec 8
  | .seqStart => controlWordOf 0x0 0
  | .padCopy => controlWordOf 0x1 0
  | .padTerm => controlWordOf 0x2 0
  | .padZero => controlWordOf 0x3 0
  | .padLen k => controlWordOf 0x4 k
  | .cmpInit => controlWordOf 0x5 0
  | .wrLoad => controlWordOf 0x6 0
  | .cmpRound r => controlWordOf 0x7 r
  | .cmpFfwd => controlWordOf 0x8 0
  | .finRound r => controlWordOf 0x9 r
  | .hexEmit => controlWordOf 0xA 0
  | .seqDone => controlWordOf 0xB 0

/-- The operation the decoder reads from the instruction whose bits are `w` in the numbering of
spec/opcode_table.json. Every row has 8 bits, one byte. -/
def decodeTableWord (nbits w : Nat) : Option Instr :=
  match decode (BitVec.ofNat 8 (w % 2 ^ nbits)) with
  | .ok i => some i
  | .error _ => none

end Sys2Proof
end

