-- ==== Sys2Proof/Config.lean ====
section
/-! DEFINITION. What the spec leaves to the implementation: the round constant table and the power-up
contents of the message memory. Both are free values: constants without a body. -/

namespace Sys2Proof

/-- The hardware's round constant table (R9, R26, D2; U1). The source prints none of its 16 values, so this
constant has no body and nothing can be proved of its entries. The table an instance of the block uses is the
field `rcon` of its state; this constant is what that field holds after reset. Log 1. -/
opaque Config.rcon : Vector Word 16

/-- What cell `addr` of MSG holds while the host has not written it (R34 "unspecified", U13 "any value"), for
the power-up numbered `epoch`. Log 4. -/
opaque Config.unwrittenMsg (epoch addr : Nat) : Byte

end Sys2Proof
end

