-- ==== Sys2Proof/Machine/State.lean ====
section
/-! DEFINITION. The state of the block as plain data (spec/10_state.md R20 to R37, spec/20_memory.md R40 to R44),
the reasons a step can stop, and the state after reset (R34). -/

namespace Sys2Proof.Machine

/-- An address space: its written cells, indexed from 0 (R40), as (index, content) pairs. -/
abbrev Memory (α : Type) := List (Nat × α)

/-- The canonical form of an address space: indices strictly rising. A cell that is not listed holds no written
value, so no listed cell equals one, and equal memories are equal lists. -/
abbrev Memory.wf {α : Type} (m : Memory α) : Prop := List.Pairwise (fun x y => x.1 < y.1) m

/-- The four state registers (R20). -/
structure Regs where
  a : Word
  b : Word
  c : Word
  d : Word
  deriving DecidableEq, Repr

/-- The control sequencer's position `pc = (OP, R, J, I)` (R27). -/
structure Position where
  op : Nibble
  r : Nibble
  j : Nat
  i : Nat
  deriving DecidableEq, Repr

/-- STATUS (R29). -/
inductive Status where
  | idle
  | busy
  | done
  deriving DecidableEq, Repr

/-- The whole state of one block. -/
structure State where
  /-- A, B, C, D (R20). -/
  regs : Regs
  /-- W, the word register (R22). -/
  w : Word
  /-- N, the message length in bytes (R24). -/
  n : Nat
  /-- The sequencer's position (R27). -/
  pc : Position
  /-- STATUS (R29). -/
  status : Status
  /-- MSG, the message memory: the cells the host has written (R41). -/
  msg : Memory Byte
  /-- PAD, the padded buffer: the cells written since reset (R42). -/
  pad : Memory Byte
  /-- OUT, the output string buffer: characters (R44). -/
  out : Memory Char
  /-- RCON, the round constant table, read only (R26, R43). -/
  rcon : Vector Word 16
  /-- MSG_CAP, the largest length a start may carry; none when unbounded (R9). -/
  msgCap : Option Nat
  /-- The host's start command with its n_host, issued and not yet accepted (R140, R141). -/
  start : Option Nat
  /-- The model's own: which unknown power-up content MSG has (log 4). -/
  msgEpoch : Nat
  deriving DecidableEq, Repr

/-- Where the machine stops because the spec says a read stops. The hardware raises no exception (R160), and this is
none; no index stops an operation (R53, log 14). -/
inductive Fault where
  /-- WR.LOAD reads a byte of PAD that holds no value (U9, "`fault` on read"). Safe: the hardware would go on
  with some byte. No run reads one (R35). -/
  | padUnwritten (addr : Nat)
  deriving DecidableEq, Repr

/-- What the model refuses because it lies outside the protocol or the capacity: the model's own boundary, not
behaviour of the hardware (R163). -/
inductive Refusal where
  /-- exec's arm for an operation without a meaning. Safe. No arm of this model uses it. -/
  | notModelled (mnemonic : String)
  /-- The step, where pc holds a reserved control word, and PAD.LEN given an index above 7 (R70, U5). Safe:
  unreachable. -/
  | reservedControlWord (cw : BitVec 8)
  /-- The step and SEQ.START, where a start stands issued while STATUS is BUSY, and the host's start while STATUS is
  BUSY (R141, R143, U6). Unsafe where a real host breaks the protocol (D10). -/
  | startWhileBusy
  /-- SEQ.START and the host's start, where n_host is above MSG_CAP (R141, U10). Safe (D4). -/
  | startOverCapacity (nHost : Nat)
  /-- The host's write to MSG while STATUS is BUSY (R143, R163, U7). Unsafe where a real host breaks the protocol
  (D10). -/
  | msgWriteWhileBusy
  /-- The host's write to a byte of the message whose start it has issued and SEQ.START has not accepted yet (R188: the
  message stays unchanged from start; U7). Unsafe where a real host breaks the protocol (D10). -/
  | msgWriteAfterStart (addr : Nat)
  deriving DecidableEq, Repr

/-- The outcome of one operation. -/
abbrev Outcome := Host.Outcome State Fault Refusal

/-- The state right after reset (R34, R180). STATUS and pc are the spec's; RCON is the parameter; the registers'
values and the rest are named in the logs 2, 3, 4, 5, 7 and 12. -/
def State.reset : State where
  regs := { a := 0, b := 0, c := 0, d := 0 }
  w := 0
  n := 0
  pc := { op := 0, r := 0, j := 0, i := 0 }
  status := .idle
  msg := []
  pad := []
  out := []
  rcon := Config.rcon
  msgCap := none
  start := none
  msgEpoch := 0

end Sys2Proof.Machine
end

