-- ==== Sys2Proof/Machine/Operands.lean ====
section
/-! DEFINITION. What an operation works on besides registers and memory: the hardwired constants (R8, R25) and
the values derived from N and from the round index (R69). The literals are copied as the spec prints them; it
warns that they are unaudited (R10, log 18). -/

namespace Sys2Proof.Machine

/-! ### Hardwired constants (R8, R25) -/

/-- TERM, the terminator byte. -/
def termByte : Byte := 0x80

/-- FILL, the zero-fill byte. -/
def fillByte : Byte := 0x00

/-- IV_A, IV_B, IV_C, IV_D: the initial register values. -/
def iv : Regs := { a := 0x243F6A88, b := 0x85A308D3, c := 0x13198A2E, d := 0x03707344 }

/-- K_TB, added to `tB` in a Compressor round. -/
def kTB : Word := 0xA5A5A5A5

/-- K_TD, added to `tD` in a Compressor round. -/
def kTD : Word := 0x5A5A5A5A

/-- K_FA, added to W in the feed-forward of A. -/
def kFA : Word := 0xDEADBEEF

/-- K_FB, XORed with W in the feed-forward of B. -/
def kFB : Word := 0x0F0F0F0F

/-- FF_ROT_C, the rotation of W in the feed-forward of C. -/
def ffRotC : Nat := 17

/-- FF_ROT_D, the rotation of W in the feed-forward of D. -/
def ffRotD : Nat := 3

/-! ### Quantities of the padded buffer -/

/-- `z`, the zero-fill count (R82). -/
def zeroFill (n : Nat) : Nat := 3 - n % 4

/-- `m`, the padded length (R83). -/
def paddedLen (n : Nat) : Nat := 4 * (n / 4) + 12

/-- `m - 8`, where the length field begins (R60, R88). -/
def lenFieldAt (n : Nat) : Nat := 4 * (n / 4) + 4

/-- `m/4`, the number of words of a run (R63). -/
def wordCount (n : Nat) : Nat := n / 4 + 3

/-- `bit_len`, the low 64 bits of `8*n` (R84). -/
def bitLen (n : Nat) : LenWord := BitVec.ofNat 64 (8 * n)

/-- Byte `k` of the length field: `bit_len[8k+7 : 8k]` (R46, R61). -/
def lenByte (n k : Nat) : Byte := (bitLen n).extractLsb' (8 * k) 8

/-! ### Derived from the round index `r` -/

/-- The table entry an operation reads at offset `c` in round `r`: `RCON[(r+c) mod 16]` (R26). -/
def rconAt (table : Vector Word 16) (r c : Nat) : Word := table[(r + c) % 16]'(Nat.mod_lt _ (by decide))

/-- Every rotation and shift count of a round is `(r mod p) + 1` (R106, R123). -/
def countOf (r p : Nat) : Nat := r % p + 1

end Sys2Proof.Machine
end

