-- ==== Sys2Proof/Machine/Ops.lean ====
section
/-! DEFINITION. The named operations over words, address spaces and registers that the meanings are written with
(R12, R13, R40 to R54, R100 to R102). The hardware takes no exception and returns from none (R160, R166, R167), so there
is no such operation here. -/

namespace Sys2Proof.Machine

/-! ### Words (R12) -/

/-- `x << s`: logical, zeros enter at bit 0 (R12). -/
def shl (x : Word) (s : Nat) : Word := x <<< s

/-- `x >> s`: logical, zeros enter at bit 31 (R12). -/
def shr (x : Word) (s : Nat) : Word := x >>> s

/-- `rotl(x, s)`: circular left shift (R12). -/
def rotl (x : Word) (s : Nat) : Word := shl x s ||| shr x (32 - s)

/-- The selector `F` (R100). -/
def selF (x y z : Word) : Word := (x &&& y) ||| (~~~x &&& z)

/-- The selector `G`, bitwise majority (R101). -/
def selG (x y z : Word) : Word := (x &&& y) ||| (x &&& z) ||| (y &&& z)

/-- The selector `H`, bitwise parity (R102). -/
def selH (x y z : Word) : Word := x ^^^ y ^^^ z

/-- `le32`: the first byte is least significant (R13, R45). -/
def le32 (b0 b1 b2 b3 : Byte) : Word := b3 ++ b2 ++ b1 ++ b0

/-! ### Address spaces (R13, R40) -/

/-- The cell at index `a`, where it has been written. -/
def Memory.read? {α : Type} (a : Nat) : Memory α → Option α
  | [] => none
  | (b, v) :: rest => if a = b then some v else Memory.read? a rest

/-- MemWrite of one cell (R13); keeps the canonical form. -/
def Memory.write {α : Type} (a : Nat) (v : α) : Memory α → Memory α
  | [] => [(a, v)]
  | (b, u) :: rest =>
    if a < b then (a, v) :: (b, u) :: rest
    else if a = b then (a, v) :: rest
    else (b, u) :: Memory.write a v rest

/-- MemWrite of a sequence of cells, its first at index `a` (R13). -/
def Memory.writeList {α : Type} (a : Nat) : List α → Memory α → Memory α
  | [], m => m
  | v :: vs, m => Memory.writeList (a + 1) vs (Memory.write a v m)

/-- A message of `len` bytes fits: `len ≤ MSG_CAP` (R9, R141). -/
def fits (cap : Option Nat) (len : Nat) : Bool :=
  match cap with
  | none => true
  | some k => decide (len ≤ k)

/-- `MemRead(MSG:a, 1)` (R13, R41): the byte the host wrote, or the free value of log 4. Reading changes nothing (R51),
and no index is out of range (R53). -/
def State.msgAt (s : State) (a : Nat) : Byte :=
  match Memory.read? a s.msg with
  | some b => b
  | none => Config.unwrittenMsg s.msgEpoch a

/-- `MemRead(PAD:a, 1)` (R13, R42); a byte that holds no value faults (U9, log 5). -/
def readPad (a : Nat) (s : State) : Except Fault Byte :=
  match Memory.read? a s.pad with
  | some b => .ok b
  | none => .error (.padUnwritten a)

/-- `MemWrite(PAD:a, 1, b)` (R13, R42). -/
def writePad (a : Nat) (b : Byte) (s : State) : State := { s with pad := Memory.write a b s.pad }

/-- `le32` of `MemRead(PAD:a, 4)` (R45, R49). -/
def readPadWord (a : Nat) (s : State) : Except Fault Word :=
  match readPad a s, readPad (a + 1) s, readPad (a + 2) s, readPad (a + 3) s with
  | .ok b0, .ok b1, .ok b2, .ok b3 => .ok (le32 b0 b1 b2 b3)
  | .error f, _, _, _ => .error f
  | _, .error f, _, _ => .error f
  | _, _, .error f, _ => .error f
  | _, _, _, .error f => .error f

/-- `MemWrite(OUT:0, 32, text)` (R13, R44). -/
def writeOut (text : List Char) (s : State) : State := { s with out := Memory.writeList 0 text s.out }

/-! ### Registers (R13) -/

/-- Write A, B, C and D (R20). -/
def setRegs (r : Regs) (s : State) : State := { s with regs := r }

/-- Write W (R22). -/
def setW (x : Word) (s : State) : State := { s with w := x }

/-- Write N (R24). -/
def setN (x : Nat) (s : State) : State := { s with n := x }

/-- `pc <- target` (R13). -/
def setPc (p : Position) (s : State) : State := { s with pc := p }

/-- Take the host's start command off: it is an event, accepted once (R140). -/
def takeStart (s : State) : State := { s with start := none }

end Sys2Proof.Machine
end

