-- ==== Sys2Proof/Machine/Flags.lean ====
section
/-! DEFINITION. The block has no flags, no condition codes and no predicates (R30); its one status field is
STATUS (R29). -/

namespace Sys2Proof.Machine

/-- Write STATUS (R29). -/
def setStatus (x : Status) (s : State) : State := { s with status := x }

/-- The position at which the sequencer rests: (SEQ.START, 0, 0, 0) (R34, R144). -/
def restPosition : Position := { op := 0, r := 0, j := 0, i := 0 }

/-- A final state: the block has nothing more to do (R144). -/
def State.isFinal (s : State) : Bool := decide (s.pc = restPosition ∧ (s.status = .idle ∨ s.status = .done))

/-- A start stands issued while a run is in progress: outside the protocol (R143, U6). -/
def State.startClash (s : State) : Bool := decide (s.status = .busy) && s.start.isSome

end Sys2Proof.Machine
end

