-- ==== Sys2Proof/Machine/Schedule.lean ====
section
/-! DEFINITION. Positions of the control sequencer and the successor table (R27, R28, R146). -/

namespace Sys2Proof.Machine

/-- The position at which operation `ins` is next, with the counters J and I. -/
def positionOf (ins : Instr) (j i : Nat) : Position :=
  { op := cwOp (encode ins), r := cwR (encode ins), j := j, i := i }

/-- The control word is `pc.OP` and `pc.R` (R65). -/
def Position.controlWord (p : Position) : BitVec 8 := controlWordOf p.op p.r

/-- The successor table of R146: the position after operation `ins` at position `p`, for message length `n`. The
table gives no row for a counter beyond its bound, which no run reaches; the loop is then left (log 11). -/
def successor (ins : Instr) (p : Position) (n : Nat) : Position :=
  match ins with
  | .seqStart => if 0 < n then positionOf .padCopy 0 0 else positionOf .padTerm 0 0
  | .padCopy => if p.j + 1 < n then positionOf .padCopy (p.j + 1) 0 else positionOf .padTerm 0 0
  | .padTerm => if 0 < zeroFill n then positionOf .padZero 0 0 else positionOf (.padLen 0) 0 0
  | .padZero => if p.j + 1 < zeroFill n then positionOf .padZero (p.j + 1) 0 else positionOf (.padLen 0) 0 0
  | .padLen k => if k.toNat < 7 then positionOf (.padLen (k + 1)) 0 0 else positionOf .cmpInit 0 0
  | .cmpInit => positionOf .wrLoad 0 0
  | .wrLoad => positionOf (.cmpRound 0) 0 p.i
  | .cmpRound r => if r.toNat < 15 then positionOf (.cmpRound (r + 1)) 0 p.i else positionOf .cmpFfwd 0 p.i
  | .cmpFfwd => if p.i + 1 < wordCount n then positionOf .wrLoad 0 (p.i + 1) else positionOf (.finRound 0) 0 0
  | .finRound r => if r.toNat < 15 then positionOf (.finRound (r + 1)) 0 0 else positionOf .hexEmit 0 0
  | .hexEmit => positionOf .seqDone 0 0
  | .seqDone => positionOf .seqStart 0 0

/-- `pc <- successor` (R66, R146): the last line of every operation. -/
def advance (ins : Instr) (s : State) : State := setPc (successor ins s.pc s.n) s

end Sys2Proof.Machine
end

