-- ==== Sys2Proof/Machine/Compressor.lean ====
section
/-! DEFINITION. The Compressor's operations (spec/42_compressor.md). -/

namespace Sys2Proof.Machine

/-- The four temporaries of a Compressor round (R107, step 2), in the order A, B, C, D. All read the registers as they
stood when the round began; `tC` reads `tA` (R108). -/
def cmpTemps (table : Vector Word 16) (w : Word) (r : Nat) (s : Regs) : Regs :=
  let tA := rotl (s.a + selF s.b s.c s.d + w + rconAt table r 0) (countOf r 13)
  let tB := rotl (s.b + selG s.c s.d s.a + w + rconAt table r 3) (countOf r 17) + kTB
  let tC := rotl (s.c + selH s.d s.a s.b + w + rconAt table r 6) (countOf r 19) ^^^ tA
  let tD := rotl (s.d + selF s.a s.b s.c + w + rconAt table r 9) (countOf r 23) + kTD
  { a := tA, b := tB, c := tC, d := tD }

/-- The cross-diffusion of the temporaries into the next register values (R107, step 3). -/
def crossDiffuse (r : Nat) (t : Regs) : Regs :=
  { a := t.a ^^^ shr t.b (countOf r 5)
    b := t.b ^^^ shl t.c (countOf r 7)
    c := t.c ^^^ shr t.d (countOf r 11)
    d := t.d ^^^ shl t.a (countOf r 13) }

/-- `Round(S, w, r)` (R107, R112). -/
def cmpRound (table : Vector Word 16) (w : Word) (r : Nat) (s : Regs) : Regs := crossDiffuse r (cmpTemps table w r s)

/-- `Ffwd(S, w)` (R110, R112); the right-hand side of A is formed whole before the XOR (R111, log 17). -/
def feedForward (w : Word) (s : Regs) : Regs :=
  { a := s.a ^^^ (w + kFA)
    b := s.b + (w ^^^ kFB)
    c := s.c ^^^ rotl w ffRotC
    d := s.d + rotl w ffRotD }

/-- CMP.INIT (R104): A, B, C, D from the IV. -/
def execCmpInit (s : State) : Outcome := .next (advance .cmpInit (setRegs iv s))

/-- CMP.ROUND (R107): one Compressor round `r` with W. -/
def execCmpRound (r : Nibble) (s : State) : Outcome :=
  .next (advance (.cmpRound r) (setRegs (cmpRound s.rcon s.w r.toNat s.regs) s))

/-- CMP.FFWD (R110): feed W forward. -/
def execCmpFfwd (s : State) : Outcome := .next (advance .cmpFfwd (setRegs (feedForward s.w s.regs) s))

end Sys2Proof.Machine
end

