-- ==== Sys2Proof/Machine/Finalizer.lean ====
section
/-! DEFINITION. The Finalizer's operation (spec/43_finalizer.md). -/

namespace Sys2Proof.Machine

/-- Step 1 of a Finalizer round (R121): four XOR updates in place, A, B, C, D, each seeing the ones before it
(R122, R183). -/
def finStep1 (table : Vector Word 16) (r : Nat) (s : Regs) : Regs :=
  let s := { s with a := s.a ^^^ rotl (selF s.b s.c s.d + rconAt table r 0) (countOf r 7) }
  let s := { s with b := s.b ^^^ rotl (selG s.c s.d s.a + rconAt table r 4) (countOf r 11) }
  let s := { s with c := s.c ^^^ rotl (selH s.d s.a s.b + rconAt table r 8) (countOf r 13) }
  { s with d := s.d ^^^ rotl (selF s.a s.b s.c + rconAt table r 2) (countOf r 17) }

/-- Step 2 of a Finalizer round (R121): four additions in place, A, B, C, D, each seeing the ones before it. -/
def finStep2 (s : Regs) : Regs :=
  let s := { s with a := s.a + (s.b ^^^ s.c) }
  let s := { s with b := s.b + (s.c ^^^ s.d) }
  let s := { s with c := s.c + (s.d ^^^ s.a) }
  { s with d := s.d + (s.a ^^^ s.b) }

/-- `FRound(S, r)` (R121, R124). -/
def finRound (table : Vector Word 16) (r : Nat) (s : Regs) : Regs := finStep2 (finStep1 table r s)

/-- FIN.ROUND (R121): one Finalizer round `r`. -/
def execFinRound (r : Nibble) (s : State) : Outcome :=
  .next (advance (.finRound r) (setRegs (finRound s.rcon r.toNat s.regs) s))

end Sys2Proof.Machine
end

