-- ==== Sys2Proof/Machine/HexEncoder.lean ====
section
/-! DEFINITION. The Hex Encoder's operation (spec/44_hex_encoder.md). -/

namespace Sys2Proof.Machine

/-- The 16 characters of OUT in the order of their values (R44, R64). -/
def hexAlphabet : Vector Char 16 :=
  #v['0', '1', '2', '3', '4', '5', '6', '7', '8', '9', 'a', 'b', 'c', 'd', 'e', 'f']

/-- `digit(v)` (R130). -/
def digit (v : Nibble) : Char := hexAlphabet[v.toNat]'v.isLt

/-- `x[31-4p : 28-4p]`, nibble `p` of a register counted from the most significant (R64, R131). -/
def nibbleAt (x : Word) (p : Nat) : Nibble := x.extractLsb' (28 - 4 * p) 4

/-- `hex8(x)` (R130). -/
def hex8 (x : Word) : List Char :=
  [digit (nibbleAt x 0), digit (nibbleAt x 1), digit (nibbleAt x 2), digit (nibbleAt x 3),
   digit (nibbleAt x 4), digit (nibbleAt x 5), digit (nibbleAt x 6), digit (nibbleAt x 7)]

/-- `HexEncode(a,b,c,d)` (R130). -/
def hexEncode (s : Regs) : List Char := hex8 s.a ++ hex8 s.b ++ hex8 s.c ++ hex8 s.d

/-- HEX.EMIT (R131): `OUT[0..31] <- HexEncode(A, B, C, D)`. -/
def execHexEmit (s : State) : Outcome := .next (advance .hexEmit (writeOut (hexEncode s.regs) s))

end Sys2Proof.Machine
end

