-- ==== Sys2Proof/Machine/Padder.lean ====
section
/-! DEFINITION. The Padder's operations (spec/40_padder.md). -/

namespace Sys2Proof.Machine

/-- The last lines of every Padder operation: store one byte in PAD, then `pc <- successor`. -/
def storePadByte (ins : Instr) (addr : Nat) (b : Byte) (s : State) : Outcome :=
  .next (advance ins (writePad addr b s))

/-- PAD.COPY (R85): `PAD[j] <- MSG[j]`, `j = pc.J`. -/
def execPadCopy (s : State) : Outcome := storePadByte .padCopy s.pc.j (s.msgAt s.pc.j) s

/-- PAD.TERM (R86): `PAD[n] <- 0x80`. -/
def execPadTerm (s : State) : Outcome := storePadByte .padTerm s.n termByte s

/-- PAD.ZERO (R87): `PAD[n+1+j] <- 0x00`, `j = pc.J`. -/
def execPadZero (s : State) : Outcome := storePadByte .padZero (s.n + 1 + s.pc.j) fillByte s

/-- PAD.LEN (R88): `PAD[m-8+k] <- bit_len[8k+7 : 8k]`. An index above 7 is no operation (R68, R70). -/
def execPadLen (k : Nibble) (s : State) : Outcome :=
  if k.toNat ≤ 7 then storePadByte (.padLen k) (lenFieldAt s.n + k.toNat) (lenByte s.n k.toNat) s
  else .refused (.reservedControlWord (encode (.padLen k)))

end Sys2Proof.Machine
end

