-- ==== Sys2Proof/Machine/Sequencer.lean ====
section
/-! DEFINITION. The sequencer's own operations (spec/45_sequencer.md). -/

namespace Sys2Proof.Machine

/-- SEQ.START with a start command of the host that carries `nHost` (R141). -/
def acceptStart (nHost : Nat) (s : State) : Outcome :=
  if s.status = .busy then .refused .startWhileBusy
  else if fits s.msgCap nHost then .next (advance .seqStart (setStatus .busy (setN nHost (takeStart s))))
  else .refused (.startOverCapacity nHost)

/-- SEQ.START (R141). While the host has issued no start the sequencer rests and the state stays as it is
(log 6). -/
def execSeqStart (s : State) : Outcome :=
  match s.start with
  | none => .next s
  | some nHost => acceptStart nHost s

/-- SEQ.DONE (R142): `STATUS <- DONE`, rest. -/
def execSeqDone (s : State) : Outcome := .next (advance .seqDone (setStatus .done s))

end Sys2Proof.Machine
end

