-- ==== Sys2Proof/Machine/WordReader.lean ====
section
/-! DEFINITION. The Word Reader's operation (spec/41_word_reader.md). -/

namespace Sys2Proof.Machine

/-- WR.LOAD (R91): `W <- le32 of PAD[4i .. 4i+3]`, `i = pc.I`. -/
def execWrLoad (s : State) : Outcome :=
  match readPadWord (4 * s.pc.i) s with
  | .ok x => .next (advance .wrLoad (setW x s))
  | .error f => .fault f

end Sys2Proof.Machine
end

