-- ==== Sys2Proof/Machine/Dispatch.lean ====
section
/-! DEFINITION. One arm per operation (R66, R67). -/

namespace Sys2Proof.Machine

def exec (i : Instr) (s : State) : Host.Outcome State Fault Refusal :=
  match i with
  | .seqStart => Sys2Proof.Machine.execSeqStart s
  | .padCopy => Sys2Proof.Machine.execPadCopy s
  | .padTerm => Sys2Proof.Machine.execPadTerm s
  | .padZero => Sys2Proof.Machine.execPadZero s
  | .padLen k => Sys2Proof.Machine.execPadLen k s
  | .cmpInit => Sys2Proof.Machine.execCmpInit s
  | .wrLoad => Sys2Proof.Machine.execWrLoad s
  | .cmpRound r => Sys2Proof.Machine.execCmpRound r s
  | .cmpFfwd => Sys2Proof.Machine.execCmpFfwd s
  | .finRound r => Sys2Proof.Machine.execFinRound r s
  | .hexEmit => Sys2Proof.Machine.execHexEmit s
  | .seqDone => Sys2Proof.Machine.execSeqDone s

end Sys2Proof.Machine
end

