-- ==== Sys2Proof/Machine/HostInterface.lean ====
section
/-! DEFINITION. What the host can do to the block from outside (R140, R143, R180): the moves between steps. None of
them is an operation of the sequencer. -/

namespace Sys2Proof.Machine

/-- The host writes one byte of MSG (R143): any byte while the block rests, but for those of a message whose start it has
issued (R188). -/
def hostWriteMsg (a : Nat) (b : Byte) (s : State) : Outcome :=
  if s.status = .busy then .refused .msgWriteWhileBusy
  else if a < s.start.getD 0 then .refused (.msgWriteAfterStart a)
  else .next { s with msg := Memory.write a b s.msg }

/-- The host issues `start` with the length `nHost` (R140, R143). The command waits for SEQ.START to accept it, and takes
the place of one that waits (log 8). -/
def hostStart (nHost : Nat) (s : State) : Outcome :=
  if s.status = .busy then .refused .startWhileBusy
  else if fits s.msgCap nHost then .next { s with start := some nHost }
  else .refused (.startOverCapacity nHost)

/-- What the host reads at OUT[p]: the character while STATUS is DONE; at any other time no defined value (R44,
U8). -/
def hostReadOut (p : Nat) (s : State) : Option Char :=
  if s.status = .done then Memory.read? p s.out else none

/-- The digest string the host reads: OUT[0..31] while STATUS is DONE (R140, R144). -/
def hostReadDigest (s : State) : Option (List Char) := (List.range 32).mapM fun p => hostReadOut p s

/-- Reset, at any time (R180): STATUS IDLE, pc at rest, the table and MSG_CAP unaffected, everything else as after
power-up, with MSG contents nothing is known of (log 4, log 15). -/
def applyReset (s : State) : State :=
  { State.reset with rcon := s.rcon, msgCap := s.msgCap, msgEpoch := s.msgEpoch + 1 }

/-- `s` with pc at the control word `cw`. SEQ.START is an operation the host's command starts (R141), so for it a
start command stands issued (that of `s`, or one for the empty message) and the sequencer is not in a run. No other
operation has a command standing, which a run in progress would refuse. -/
def placeControlWord (cw : BitVec 8) (s : State) : State :=
  let s := { s with pc := { s.pc with op := cwOp cw, r := cwR cw } }
  match decode cw with
  | .ok .seqStart =>
    { s with
      start := some (s.start.getD 0)
      status := if s.status = .busy then .idle else s.status }
  | _ => { s with start := none }

end Sys2Proof.Machine
end

