-- ==== Sys2Proof/Machine/Step.lean ====
section
/-! DEFINITION. One step of the block: the operation `pc` names (R27, R66). No memory holds operations (R56), so what
stands in place of a fetch is the control word in `pc`. -/

namespace Sys2Proof.Machine

/-- One step. A start issued while a run is in progress (R143, U6) and a reserved control word (R70, U5) are
refused. -/
def step (s : State) : Host.Outcome State Fault Refusal :=
  if s.startClash then .refused .startWhileBusy
  else
    match decode s.pc.controlWord with
    | .ok i => exec i s
    | .error _ => .refused (.reservedControlWord s.pc.controlWord)

/-- `s` with the control word `w` where the next step takes its operation from, and the host's command standing
so that this operation is the one performed (log 16). -/
def State.withFetchWord (s : State) (nbits w : Nat) : State := placeControlWord (BitVec.ofNat 8 (w % 2 ^ nbits)) s

end Sys2Proof.Machine
end

