-- ==== Sys2Proof/Machine/Digest.lean ====
section
/-! DEFINITION. What a run computes, as functions of the table and the message alone (R80, R90, R112, R124, R130, R145), and
the positions a run goes through (R73, R147). No step uses them; statements compare the steps with them. -/

namespace Sys2Proof.Machine

/-- The length field of a message of `n` bytes: least significant byte first (R46, R61). -/
def lenField (n : Nat) : List Byte := (List.range 8).map (lenByte n)

/-- `Pad(msg)` (R80). -/
def padMessage (msg : List Byte) : List Byte :=
  msg ++ [termByte] ++ List.replicate (zeroFill msg.length) fillByte ++ lenField msg.length

/-- `Words(p)` (R90); a rest shorter than a word gives none, and `Pad` leaves none. -/
def wordsOf : List Byte → List Word
  | b0 :: b1 :: b2 :: b3 :: rest => le32 b0 b1 b2 b3 :: wordsOf rest
  | _ => []

/-- The 16 rounds of one word (R112). -/
def roundsOf (table : Vector Word 16) (w : Word) (s : Regs) : Regs :=
  (List.range 16).foldl (fun t r => cmpRound table w r t) s

/-- `Absorb(S, w)` (R112). -/
def absorb (table : Vector Word 16) (s : Regs) (w : Word) : Regs := feedForward w (roundsOf table w s)

/-- `Compress(ws)` (R112). -/
def compress (table : Vector Word 16) (ws : List Word) : Regs := ws.foldl (absorb table) iv

/-- `Finalize(S)` (R124). -/
def finalize (table : Vector Word 16) (s : Regs) : Regs := (List.range 16).foldl (fun t r => finRound table r t) s

/-- `CipherA128(RCON, msg)` (R145). -/
def cipherA128 (table : Vector Word 16) (msg : List Byte) : List Char :=
  hexEncode (finalize table (compress table (wordsOf (padMessage msg))))

/-- `MSG[0..n-1]` as it stands in `s`. -/
def State.message (s : State) (n : Nat) : List Byte := (List.range n).map s.msgAt

/-! ### The schedule as a list of positions -/

/-- `PAD n` (R73). -/
def padPositions (n : Nat) : List Position :=
  (List.range n).map (fun j => positionOf .padCopy j 0) ++ [positionOf .padTerm 0 0] ++
    (List.range (zeroFill n)).map (fun j => positionOf .padZero j 0) ++
    (List.range 8).map (fun k => positionOf (.padLen (BitVec.ofNat 4 k)) 0 0)

/-- `ABSORB i` (R73). -/
def absorbPositions (i : Nat) : List Position :=
  [positionOf .wrLoad 0 i] ++ (List.range 16).map (fun r => positionOf (.cmpRound (BitVec.ofNat 4 r)) 0 i) ++
    [positionOf .cmpFfwd 0 i]

/-- `DIGEST n`: the positions of the whole run of a message of `n` bytes, in order (R73, R147). -/
def runPositions (n : Nat) : List Position :=
  [positionOf .seqStart 0 0] ++ padPositions n ++ [positionOf .cmpInit 0 0] ++
    (List.range (wordCount n)).flatMap absorbPositions ++
    (List.range 16).map (fun r => positionOf (.finRound (BitVec.ofNat 4 r)) 0 0) ++
    [positionOf .hexEmit 0 0, positionOf .seqDone 0 0]

/-- The number of operations of the run of a message of `n` bytes (R73, R148). -/
def runLength (n : Nat) : Nat := paddedLen n + 18 * wordCount n + 20

end Sys2Proof.Machine
end

