-- ==== Sys2Proof/Safety.lean ====
section
/-! DEFINITION. The terms claims are made in: the moves of the host (R143), the states a block can come to (R163), and
the invariant of the schedule (R35, R146). -/

namespace Sys2Proof.Machine

/-- `k` operations of the block one after the other, stopping at the first stop. -/
def run : Nat → State → Outcome
  | 0, s => .next s
  | k + 1, s =>
    match step s with
    | .next t => run k t
    | .fault r => .fault r
    | .refused r => .refused r

/-- The host has issued a start for a message of `n` bytes to a resting block, and the message fits: SEQ.START's
precondition (R141). -/
def State.readyFor (s : State) (n : Nat) : Prop :=
  s.pc = restPosition ∧ s.status ≠ .busy ∧ s.start = some n ∧ fits s.msgCap n = true

/-- A move the protocol gives the host between two steps of the block (R143, R180). -/
inductive HostMove where
  | writeMsg (addr : Nat) (b : Byte)
  | start (nHost : Nat)
  | reset
  deriving DecidableEq, Repr

/-- The effect of a move; a write or a start outside the protocol, and a start above the capacity, is refused. -/
def HostMove.apply (mv : HostMove) (s : State) : Outcome :=
  match mv with
  | .writeMsg addr b => hostWriteMsg addr b s
  | .start nHost => hostStart nHost s
  | .reset => .next (applyReset s)

/-- A block right after its first reset (R182): built with the table `table`, the capacity `cap`, and MSG contents
nothing is known of. -/
def State.afterReset (table : Vector Word 16) (cap : Option Nat) (epoch : Nat) : State :=
  { State.reset with rcon := table, msgCap := cap, msgEpoch := epoch }

/-- The states reachable from reset by steps of the block and moves of the host (R163). -/
inductive Reachable : State → Prop where
  | reset (table : Vector Word 16) (cap : Option Nat) (epoch : Nat) : Reachable (State.afterReset table cap epoch)
  | step (s t : State) : Reachable s → Sys2Proof.Machine.step s = .next t → Reachable t
  | move (mv : HostMove) (s t : State) : Reachable s → mv.apply s = .next t → Reachable t

/-- The cells of `m` at indices below `k` all hold a value. -/
def Memory.filledBelow {α : Type} (m : Memory α) (k : Nat) : Prop := ∀ a, a < k → (Memory.read? a m).isSome

/-- How many bytes of PAD a run for length `n` has written when operation `ins` is next at `p` (R89, R146). -/
def padBytesBefore (ins : Instr) (p : Position) (n : Nat) : Nat :=
  match ins with
  | .seqStart => 0
  | .padCopy => p.j
  | .padTerm => n
  | .padZero => n + 1 + p.j
  | .padLen k => lenFieldAt n + k.toNat
  | .cmpInit => paddedLen n
  | .wrLoad => paddedLen n
  | .cmpRound _ => paddedLen n
  | .cmpFfwd => paddedLen n
  | .finRound _ => paddedLen n
  | .hexEmit => paddedLen n
  | .seqDone => paddedLen n

/-- The counters J and I at `p` are ones that operation `ins` meets in a run for length `n` (R27, R146); SEQ.START is met
only at rest. -/
def countersInRange (ins : Instr) (p : Position) (n : Nat) : Bool :=
  match ins with
  | .seqStart => false
  | .padCopy => decide (p.j < n ∧ p.i = 0)
  | .padTerm => decide (p.j = 0 ∧ p.i = 0)
  | .padZero => decide (p.j < zeroFill n ∧ p.i = 0)
  | .padLen _ => decide (p.j = 0 ∧ p.i = 0)
  | .cmpInit => decide (p.j = 0 ∧ p.i = 0)
  | .wrLoad => decide (p.j = 0 ∧ p.i < wordCount n)
  | .cmpRound _ => decide (p.j = 0 ∧ p.i < wordCount n)
  | .cmpFfwd => decide (p.j = 0 ∧ p.i < wordCount n)
  | .finRound _ => decide (p.j = 0 ∧ p.i = 0)
  | .hexEmit => decide (p.j = 0 ∧ p.i = 0)
  | .seqDone => decide (p.j = 0 ∧ p.i = 0)

/-- The bytes of PAD written before the operation at `p`; none at a position that names no operation. -/
def padProgress (p : Position) (n : Nat) : Nat :=
  match decode p.controlWord with
  | .ok ins => padBytesBefore ins p n
  | .error _ => 0

/-- The positions of a run in progress for length `n` (R27, R146): every one of `runPositions n` but the first,
SEQ.START. -/
def onSchedule (p : Position) (n : Nat) : Bool :=
  match decode p.controlWord with
  | .ok ins => countersInRange ins p n
  | .error _ => false

/-- A character of the output alphabet (R44, R133). -/
def isHexDigit (c : Char) : Bool := hexAlphabet.toList.contains c

/-- OUT[0..31] all hold characters of the alphabet (R133). -/
def outComplete (m : Memory Char) : Prop := ∀ p, p < 32 → ∃ c, Memory.read? p m = some c ∧ isHexDigit c = true

/-- The invariant of the block: what holds of every reachable state (R9, R27, R35, R44, R141, R143, R144, R146). -/
structure State.Inv (s : State) : Prop where
  /-- The three address spaces are in canonical form. -/
  msgCanonical : Memory.wf s.msg
  padCanonical : Memory.wf s.pad
  outCanonical : Memory.wf s.out
  /-- Resting, the sequencer is at (SEQ.START, 0, 0, 0) (R144). -/
  resting : s.status ≠ .busy → s.pc = restPosition
  /-- In a run it is at a position of the schedule (R146). -/
  running : s.status = .busy → onSchedule s.pc s.n = true
  /-- In a run no start stands issued (R143). -/
  noClash : s.status = .busy → s.start = none
  /-- The run's message fits (R141), and so does one the host has asked for. -/
  runFits : s.status = .busy → fits s.msgCap s.n = true
  startFits : ∀ nHost, s.start = some nHost → fits s.msgCap nHost = true
  /-- The bytes of PAD the run has come past hold values (R35, R89). -/
  padWritten : s.status = .busy → Memory.filledBelow s.pad (padProgress s.pc s.n)
  /-- PAD holds nothing at an index above the size R9 derives for it. -/
  padWithinCapacity : ∀ cap, s.msgCap = some cap → ∀ a, paddedLen cap ≤ a → Memory.read? a s.pad = none
  /-- From HEX.EMIT on, and while STATUS is DONE, OUT holds a string of the alphabet (R44, R133). -/
  outWritten : s.status = .done ∨ decode s.pc.controlWord = .ok .seqDone → outComplete s.out

end Sys2Proof.Machine
end

