-- ==== Sys2Proof/Certificates/Slice0/Obligations.lean ====
section
/-! DEFINITION. The statements for the provers. Each docstring names the rule of spec/ it comes from. Codes in positions
are those of R67, written out: (0x1, 0, J, 0) is PAD.COPY at counter J. -/

open Sys2Proof Sys2Proof.Machine

/-! ### Encoding and decoding -/

/-- R67, R72, R76: decoding an encoded operation gives it back, from a control word and from a trace's bytes. -/
def Obligations.DecodeOfEncode : Prop :=
  ∀ (i : Instr) (rest : List Byte), i.wellFormed = true →
    decode (encode i) = .ok i ∧ decodeBytes (encode i :: rest) = .ok (i, rest)

/-- R67, R76: every control word that names an operation is that operation's only encoding. -/
def Obligations.EncodeOfDecode : Prop :=
  ∀ (cw : BitVec 8) (i : Instr), decode cw = .ok i → i.wellFormed = true ∧ encode i = cw

/-- The 12 rows of spec/opcode_table.json: match, mask, and the operation with the word's R. -/
def opcodeRows : List (BitVec 8 × BitVec 8 × (Nibble → Instr)) :=
  [(0x00, 0xFF, fun _ => .seqStart), (0x10, 0xFF, fun _ => .padCopy), (0x20, 0xFF, fun _ => .padTerm),
   (0x30, 0xFF, fun _ => .padZero), (0x40, 0xF8, .padLen), (0x50, 0xFF, fun _ => .cmpInit),
   (0x60, 0xFF, fun _ => .wrLoad), (0x70, 0xF0, .cmpRound), (0x80, 0xFF, fun _ => .cmpFfwd),
   (0x90, 0xF0, .finRound), (0xA0, 0xFF, fun _ => .hexEmit), (0xB0, 0xFF, fun _ => .seqDone)]

/-- The operations without an operand, with their OP (R67). -/
def plainOps : List (Nibble × Instr) :=
  [(0x0, .seqStart), (0x1, .padCopy), (0x2, .padTerm), (0x3, .padZero), (0x5, .cmpInit), (0x6, .wrLoad),
   (0x8, .cmpFfwd), (0xA, .hexEmit), (0xB, .seqDone)]

/-- R76: the decoding rule, case by case, and its agreement with the match and mask of every table row. -/
def Obligations.DecodingRule : Prop :=
  (∀ cw : BitVec 8,
    let op := cw.extractLsb' 4 4
    let r := cw.extractLsb' 0 4
    (0xC ≤ op.toNat → decode cw = .error (.reservedOp cw)) ∧
    (op = 0x7 → decode cw = .ok (.cmpRound r)) ∧
    (op = 0x9 → decode cw = .ok (.finRound r)) ∧
    (op = 0x4 → decode cw = if r.toNat ≤ 7 then .ok (.padLen r) else .error (.reservedIndex cw)) ∧
    (∀ row ∈ plainOps, op = row.1 → decode cw = if r = 0 then .ok row.2 else .error (.reservedIndex cw))) ∧
  (∀ row ∈ opcodeRows, ∀ cw : BitVec 8,
    cw &&& row.2.1 = row.1 ↔ decode cw = .ok (row.2.2 (cw.extractLsb' 0 4)))

/-- R70's list: the control words that name no operation. -/
def reservedWord (cw : BitVec 8) : Prop :=
  0xC0 ≤ cw.toNat ∨ (0x48 ≤ cw.toNat ∧ cw.toNat ≤ 0x4F) ∨
    (cw.extractLsb' 4 4 ∈ plainOps.map Prod.fst ∧ cw.extractLsb' 0 4 ≠ 0)

/-- R70: exactly the listed words are reserved; the sequencer never produces one; no move of the host writes pc but
reset; and a state whose pc is reserved has no successor and is not final. -/
def Obligations.ReservedControlWords : Prop :=
  (∀ cw, (∃ e, decode cw = .error e) ↔ reservedWord cw) ∧
  (∀ i p n, i.wellFormed = true → ¬ reservedWord (successor i p n).controlWord) ∧
  (∀ mv s t, HostMove.apply mv s = .next t → t.pc = s.pc ∨ (mv = .reset ∧ t.pc = restPosition)) ∧
  (∀ s : State, reservedWord s.pc.controlWord →
    s.isFinal = false ∧ (∀ t, step s ≠ .next t) ∧
      (s.startClash = false → step s = .refused (.reservedControlWord s.pc.controlWord)))

/-- Words written out from R67 and spec/95 V-SCHED decode to what they stand for. -/
def Obligations.DecodedWordSamples : Prop :=
  decode 0b00000000 = .ok .seqStart ∧ decode 0b00010000 = .ok .padCopy ∧ decode 0b01000111 = .ok (.padLen 7) ∧
  decode 0b01010000 = .ok .cmpInit ∧ decode 0b01111111 = .ok (.cmpRound 15) ∧ decode 0b10011100 = .ok (.finRound 12) ∧
  decode 0b10110000 = .ok .seqDone ∧ decode 0b00000001 = .error (.reservedIndex 0x01) ∧
  decode 0b01001000 = .error (.reservedIndex 0x48) ∧ decode 0b11111111 = .error (.reservedOp 0xFF)

/-! ### The step -/

/-- R27, R65, R66: when no start clashes with a run and the control word of pc names operation `i`, the step is `i`
performed at that state; nothing is added around it. -/
def Obligations.StepRunsDecodedOperation : Prop :=
  ∀ (s : State) (i : Instr), s.startClash = false → decode (s.pc.op ++ s.pc.r) = .ok i → step s = exec i s

/-- R143, U6: a start that stands issued while STATUS is BUSY is refused, whatever pc holds. The model's choice (log 8):
the spec gives the host no such move. -/
def Obligations.StartClashIsRefused : Prop :=
  ∀ (s : State) (n : Nat), s.status = .busy → s.start = some n → step s = .refused .startWhileBusy

/-- R146: the successor table, row by row, and that every operation that goes on sets pc by it, for the N it leaves
(SEQ.START's row is for an accepted start). -/
def Obligations.SuccessorTable : Prop :=
  (∀ (p : Position) (n : Nat),
    let z := 3 - n % 4
    let m := 4 * (n / 4) + 12
    (0 < n → successor .seqStart p n = ⟨0x1, 0, 0, 0⟩) ∧
    (n = 0 → successor .seqStart p n = ⟨0x2, 0, 0, 0⟩) ∧
    (p.j + 1 < n → successor .padCopy p n = ⟨0x1, 0, p.j + 1, 0⟩) ∧
    (p.j + 1 = n → successor .padCopy p n = ⟨0x2, 0, 0, 0⟩) ∧
    (0 < z → successor .padTerm p n = ⟨0x3, 0, 0, 0⟩) ∧
    (z = 0 → successor .padTerm p n = ⟨0x4, 0, 0, 0⟩) ∧
    (p.j + 1 < z → successor .padZero p n = ⟨0x3, 0, p.j + 1, 0⟩) ∧
    (p.j + 1 = z → successor .padZero p n = ⟨0x4, 0, 0, 0⟩) ∧
    (∀ r : Nibble, r.toNat < 7 → successor (.padLen r) p n = ⟨0x4, r + 1, 0, 0⟩) ∧
    successor (.padLen 7) p n = ⟨0x5, 0, 0, 0⟩ ∧
    successor .cmpInit p n = ⟨0x6, 0, 0, 0⟩ ∧
    successor .wrLoad p n = ⟨0x7, 0, 0, p.i⟩ ∧
    (∀ r : Nibble, r.toNat < 15 → successor (.cmpRound r) p n = ⟨0x7, r + 1, 0, p.i⟩) ∧
    successor (.cmpRound 15) p n = ⟨0x8, 0, 0, p.i⟩ ∧
    (p.i + 1 < m / 4 → successor .cmpFfwd p n = ⟨0x6, 0, 0, p.i + 1⟩) ∧
    (p.i + 1 = m / 4 → successor .cmpFfwd p n = ⟨0x9, 0, 0, 0⟩) ∧
    (∀ r : Nibble, r.toNat < 15 → successor (.finRound r) p n = ⟨0x9, r + 1, 0, 0⟩) ∧
    successor (.finRound 15) p n = ⟨0xA, 0, 0, 0⟩ ∧
    successor .hexEmit p n = ⟨0xB, 0, 0, 0⟩ ∧
    successor .seqDone p n = ⟨0x0, 0, 0, 0⟩) ∧
  (∀ (i : Instr) (s t : State), exec i s = .next t → (i = .seqStart → s.start.isSome) →
    t.pc = successor i s.pc t.n)

/-- R21, R22, R24, R26, R29, R40, R41: which operations write which state, and what none writes. -/
def Obligations.WritersOfEachField : Prop :=
  ∀ (i : Instr) (s t : State), exec i s = .next t →
    (t.regs ≠ s.regs → i = .cmpInit ∨ (∃ r, i = .cmpRound r) ∨ i = .cmpFfwd ∨ ∃ r, i = .finRound r) ∧
    (t.w ≠ s.w → i = .wrLoad) ∧
    (t.n ≠ s.n → i = .seqStart) ∧
    (t.status ≠ s.status → i = .seqStart ∨ i = .seqDone) ∧
    (t.start ≠ s.start → i = .seqStart) ∧
    (t.pad ≠ s.pad → i = .padCopy ∨ i = .padTerm ∨ i = .padZero ∨ ∃ k, i = .padLen k) ∧
    (t.out ≠ s.out → i = .hexEmit) ∧
    t.msg = s.msg ∧ t.rcon = s.rcon ∧ t.msgCap = s.msgCap ∧ t.msgEpoch = s.msgEpoch

/-- R28, R148: the control flow depends on pc and N alone (for SEQ.START on the host's command): two states that agree
on these, whatever their registers, tables, messages and buffers hold, go on to the same pc, N and STATUS. -/
def Obligations.ControlFlowIsDataIndependent : Prop :=
  ∀ (i : Instr) (s₁ s₂ t₁ t₂ : State), s₁.pc = s₂.pc → s₁.n = s₂.n → s₁.status = s₂.status → s₁.start = s₂.start →
    exec i s₁ = .next t₁ → exec i s₂ = .next t₂ →
    t₁.pc = t₂.pc ∧ t₁.n = t₂.n ∧ t₁.status = t₂.status ∧ t₁.start = t₂.start

/-- R93: nothing flows backward. Two states that differ only in A, B, C, D, W, OUT and the table go on, or stop, alike, and
everything else in them stays alike; WR.LOAD gives both the same W. -/
def Obligations.NothingFlowsBackward : Prop :=
  ∀ (i : Instr) (s₁ s₂ t₁ : State),
    s₂ = { s₁ with regs := s₂.regs, w := s₂.w, out := s₂.out, rcon := s₂.rcon } → exec i s₁ = .next t₁ →
    ∃ t₂, exec i s₂ = .next t₂ ∧
      t₂ = { t₁ with regs := t₂.regs, w := t₂.w, out := t₂.out, rcon := t₂.rcon } ∧ (i = .wrLoad → t₂.w = t₁.w)

/-! ### Words and address spaces -/

/-- R100, R101, R102, R103: the selectors bit by bit, their symmetries and special cases, and the spec's examples. -/
def Obligations.SelectorFunctions : Prop :=
  (∀ (x y z : Word) (i : Nat), i < 32 →
    (selF x y z).getLsbD i = (if x.getLsbD i then y.getLsbD i else z.getLsbD i) ∧
    (selG x y z).getLsbD i = decide (2 ≤ (x.getLsbD i).toNat + (y.getLsbD i).toNat + (z.getLsbD i).toNat) ∧
    (selH x y z).getLsbD i = decide (((x.getLsbD i).toNat + (y.getLsbD i).toNat + (z.getLsbD i).toNat) % 2 = 1)) ∧
  (∀ x y z : Word,
    selF x y z = (x &&& y) ||| (~~~x &&& z) ∧ selF 0 y z = z ∧ selF 0xFFFFFFFF y z = y ∧
    selG x y z = (x &&& y) ||| (x &&& z) ||| (y &&& z) ∧ selG x y z = selG y x z ∧ selG x y z = selG x z y ∧
    selG x x z = x ∧ selG 0 y z = y &&& z ∧
    selH x y z = x ^^^ y ^^^ z ∧ selH x y z = selH y x z ∧ selH x y z = selH x z y ∧ selH x x z = z) ∧
  selF 0x85A308D3 0x13198A2E 0x03707344 = 0x03517B06 ∧
  selG 0x13198A2E 0x03707344 0x243F6A88 = 0x03396A0C ∧
  selH 0x03707344 0x243F6A88 0x85A308D3 = 0xA2EC111F

/-- R12: the rotation moves bit `i` to bit `(i+s) mod 32`; the shifts are multiplication and division by a power of
two. -/
def Obligations.ShiftsAndRotation : Prop :=
  (∀ (x : Word) (s i : Nat), s ≤ 31 → i < 32 → (rotl x s).getLsbD ((i + s) % 32) = x.getLsbD i) ∧
  (∀ x : Word, rotl x 0 = x) ∧
  (∀ (x : Word) (s : Nat), 1 ≤ s → s ≤ 31 →
    rotl x s = shl x s ||| shr x (32 - s) ∧ (shl x s).toNat = (x.toNat * 2 ^ s) % 2 ^ 32 ∧
      (shr x s).toNat = x.toNat / 2 ^ s)

/-- R45: a word is assembled least significant byte first. -/
def Obligations.WordIsLittleEndian : Prop :=
  (∀ b0 b1 b2 b3 : Byte,
    (le32 b0 b1 b2 b3).toNat = b0.toNat + b1.toNat * 2 ^ 8 + b2.toNat * 2 ^ 16 + b3.toNat * 2 ^ 24 ∧
    (le32 b0 b1 b2 b3).extractLsb' 0 8 = b0 ∧ (le32 b0 b1 b2 b3).extractLsb' 8 8 = b1 ∧
    (le32 b0 b1 b2 b3).extractLsb' 16 8 = b2 ∧ (le32 b0 b1 b2 b3).extractLsb' 24 8 = b3) ∧
  le32 0x61 0x62 0x63 0x80 = 0x80636261

/-- R54: a read of a cell gives what the latest write put there, and no other cell changes; a write keeps the canonical
form (the model's own: log 5). -/
def Obligations.ReadAfterWrite : Prop :=
  ∀ (m : Memory Byte) (a b : Nat) (v : Byte),
    Memory.read? a (Memory.write a v m) = some v ∧
    (a ≠ b → Memory.read? b (Memory.write a v m) = Memory.read? b m) ∧
    (Memory.wf m → Memory.wf (Memory.write a v m))

/-- The canonical form makes equal contents equal data (the model's own: log 5). -/
def Obligations.EqualContentsAreEqualMemories : Prop :=
  ∀ m₁ m₂ : Memory Byte, Memory.wf m₁ → Memory.wf m₂ → (∀ a, Memory.read? a m₁ = Memory.read? a m₂) → m₁ = m₂

/-! ### The Padder -/

/-- R82, R83: the zero-fill count is the smallest that ends a word, and the padded length follows. -/
def Obligations.PaddingQuantities : Prop :=
  ∀ n : Nat,
    zeroFill n = 3 - n % 4 ∧ (n + 1 + zeroFill n) % 4 = 0 ∧ (∀ c, (n + 1 + c) % 4 = 0 → zeroFill n ≤ c) ∧
    (zeroFill n = 0 ↔ (n + 1) % 4 = 0) ∧
    paddedLen n = n + 1 + zeroFill n + 8 ∧ paddedLen n = 4 * (n / 4) + 12 ∧ paddedLen n % 4 = 0 ∧ 12 ≤ paddedLen n ∧
    (n ≤ 3 → paddedLen n = 12) ∧ (4 ≤ n → n ≤ 7 → paddedLen n = 16) ∧ (8 ≤ n → n ≤ 11 → paddedLen n = 20) ∧
    lenFieldAt n = paddedLen n - 8 ∧ wordCount n = paddedLen n / 4

/-- R46, R61, R84, R162: the length field holds `8*n` mod 2^64, byte `k` its bits 8k+7..8k, and it repeats every 2^61
bytes of length. -/
def Obligations.LengthFieldWraps : Prop :=
  ∀ n : Nat,
    (bitLen n).toNat = (8 * n) % 2 ^ 64 ∧ (n < 2 ^ 61 → (bitLen n).toNat = 8 * n) ∧
    bitLen (n + 2 ^ 61) = bitLen n ∧ bitLen (2 ^ 61) = 0 ∧
    (∀ k, k ≤ 7 → (lenByte n k).toNat = 8 * n / 2 ^ (8 * k) % 2 ^ 8)

/-- R80: the contract of the padded message, its four fields in order. -/
def Obligations.PaddedMessageContract : Prop :=
  ∀ msg : List Byte,
    let n := msg.length
    let m := paddedLen n
    (padMessage msg).length = m ∧ m % 4 = 0 ∧ (padMessage msg).take n = msg ∧ (padMessage msg)[n]? = some 0x80 ∧
    (∀ a, n + 1 ≤ a → a ≤ m - 9 → (padMessage msg)[a]? = some 0x00) ∧
    (∀ k, k ≤ 7 → (padMessage msg)[m - 8 + k]? = some (BitVec.ofNat 8 (8 * n / 2 ^ (8 * k))))

/-- R89: two messages shorter than 2^61 bytes with the same padded buffer are the same. -/
def Obligations.PaddingIsInjective : Prop :=
  ∀ m₁ m₂ : List Byte, m₁.length < 2 ^ 61 → m₂.length < 2 ^ 61 → padMessage m₁ = padMessage m₂ → m₁ = m₂

/-- R85, R53: PAD.COPY goes on from every state: PAD[j] holds MSG[j], the host's byte where it wrote one; every other byte
of PAD and every other field is as before but pc. That an unwritten byte of MSG is a free value is log 4, and that the
loop is left for j+1 above n is log 11: the model's choices. -/
def Obligations.PadCopyStoresMessageByte : Prop :=
  ∀ s : State,
    ∃ t, exec .padCopy s = .next t ∧
      Memory.read? s.pc.j t.pad = some (s.msgAt s.pc.j) ∧
      (∀ b, Memory.read? s.pc.j s.msg = some b → Memory.read? s.pc.j t.pad = some b) ∧
      (∀ a, a ≠ s.pc.j → Memory.read? a t.pad = Memory.read? a s.pad) ∧
      t = { s with pad := t.pad, pc := if s.pc.j + 1 < s.n then ⟨0x1, 0, s.pc.j + 1, 0⟩ else ⟨0x2, 0, 0, 0⟩ }

/-- R86, R53: PAD.TERM goes on from every state: it writes 0x80 at PAD[n], and nothing else but pc. -/
def Obligations.PadTermStoresTerminator : Prop :=
  ∀ s : State,
    ∃ t, exec .padTerm s = .next t ∧
      Memory.read? s.n t.pad = some 0x80 ∧
      (∀ a, a ≠ s.n → Memory.read? a t.pad = Memory.read? a s.pad) ∧
      t = { s with pad := t.pad, pc := if 0 < 3 - s.n % 4 then ⟨0x3, 0, 0, 0⟩ else ⟨0x4, 0, 0, 0⟩ }

/-- R87, R53: PAD.ZERO goes on from every state: it writes 0x00 at PAD[n+1+j], and nothing else but pc. That the loop is
left for j+1 above z is log 11, the model's choice. -/
def Obligations.PadZeroStoresFill : Prop :=
  ∀ s : State,
    ∃ t, exec .padZero s = .next t ∧
      Memory.read? (s.n + 1 + s.pc.j) t.pad = some 0x00 ∧
      (∀ a, a ≠ s.n + 1 + s.pc.j → Memory.read? a t.pad = Memory.read? a s.pad) ∧
      t = { s with
        pad := t.pad
        pc := if s.pc.j + 1 < 3 - s.n % 4 then ⟨0x3, 0, s.pc.j + 1, 0⟩ else ⟨0x4, 0, 0, 0⟩ }

/-- R88, R53: PAD.LEN goes on from every state: it writes byte `k` of the length field at PAD[m-8+k], and nothing else but
pc; an index above 7 is no operation (R68, R70) and is refused (log 10). -/
def Obligations.PadLenStoresLengthByte : Prop :=
  (∀ (s : State) (k : Nibble), k.toNat ≤ 7 →
    ∃ t, exec (.padLen k) s = .next t ∧
      Memory.read? (4 * (s.n / 4) + 4 + k.toNat) t.pad =
        some (BitVec.ofNat 8 (8 * s.n % 2 ^ 64 / 2 ^ (8 * k.toNat))) ∧
      (∀ a, a ≠ 4 * (s.n / 4) + 4 + k.toNat → Memory.read? a t.pad = Memory.read? a s.pad) ∧
      t = { s with pad := t.pad, pc := if k.toNat < 7 then ⟨0x4, k + 1, 0, 0⟩ else ⟨0x5, 0, 0, 0⟩ }) ∧
  (∀ (s : State) (k : Nibble), 7 < k.toNat → exec (.padLen k) s = .refused (.reservedControlWord (0x4#4 ++ k)))

/-! ### The Word Reader -/

/-- R91, R49: WR.LOAD goes on for every state in which the four bytes at the aligned index 4*i hold values: W is their
little-endian word, and nothing else changes but pc. -/
def Obligations.WrLoadAssemblesWord : Prop :=
  ∀ (s : State) (b0 b1 b2 b3 : Byte),
    Memory.read? (4 * s.pc.i) s.pad = some b0 → Memory.read? (4 * s.pc.i + 1) s.pad = some b1 →
    Memory.read? (4 * s.pc.i + 2) s.pad = some b2 → Memory.read? (4 * s.pc.i + 3) s.pad = some b3 →
    ∃ x : Word, x.toNat = b0.toNat + b1.toNat * 2 ^ 8 + b2.toNat * 2 ^ 16 + b3.toNat * 2 ^ 24 ∧
      exec .wrLoad s = .next { s with w := x, pc := ⟨0x7, 0, 0, s.pc.i⟩ }

/-- U9, log 5: WR.LOAD faults at the first of its four bytes that holds no value. -/
def Obligations.WrLoadOfUnwrittenByteFaults : Prop :=
  ∀ (s : State) (q : Nat), q < 4 →
    (∀ p, p < q → (Memory.read? (4 * s.pc.i + p) s.pad).isSome) → Memory.read? (4 * s.pc.i + q) s.pad = none →
    exec .wrLoad s = .fault (.padUnwritten (4 * s.pc.i + q))

/-- R63, R90, R92: the words of a padded message: how many, each from its four bytes, and the last two. -/
def Obligations.WordsOfPaddedMessage : Prop :=
  ∀ msg : List Byte,
    let n := msg.length
    let ws := wordsOf (padMessage msg)
    ws.length = n / 4 + 3 ∧
    (∀ (i : Nat) (b0 b1 b2 b3 : Byte), (padMessage msg)[4 * i]? = some b0 → (padMessage msg)[4 * i + 1]? = some b1 →
      (padMessage msg)[4 * i + 2]? = some b2 → (padMessage msg)[4 * i + 3]? = some b3 →
      ws[i]? = some (le32 b0 b1 b2 b3)) ∧
    ws[n / 4 + 1]? = some ((bitLen n).extractLsb' 0 32) ∧ ws[n / 4 + 2]? = some ((bitLen n).extractLsb' 32 32)

/-! ### The Compressor -/

/-- R106, R123: the table indices and the counts of every round, as the spec's tables print them. -/
def Obligations.RoundIndicesAndCounts : Prop :=
  (∀ (table : Vector Word 16) (r c : Nat), some (rconAt table r c) = table.toList[(r + c) % 16]?) ∧
  (List.range 16).map (countOf · 5) = [1, 2, 3, 4, 5, 1, 2, 3, 4, 5, 1, 2, 3, 4, 5, 1] ∧
  (List.range 16).map (countOf · 7) = [1, 2, 3, 4, 5, 6, 7, 1, 2, 3, 4, 5, 6, 7, 1, 2] ∧
  (List.range 16).map (countOf · 11) = [1, 2, 3, 4, 5, 6, 7, 8, 9, 10, 11, 1, 2, 3, 4, 5] ∧
  (List.range 16).map (countOf · 13) = [1, 2, 3, 4, 5, 6, 7, 8, 9, 10, 11, 12, 13, 1, 2, 3] ∧
  (List.range 16).map (countOf · 17) = [1, 2, 3, 4, 5, 6, 7, 8, 9, 10, 11, 12, 13, 14, 15, 16] ∧
  (List.range 16).map (countOf · 19) = [1, 2, 3, 4, 5, 6, 7, 8, 9, 10, 11, 12, 13, 14, 15, 16] ∧
  (List.range 16).map (countOf · 23) = [1, 2, 3, 4, 5, 6, 7, 8, 9, 10, 11, 12, 13, 14, 15, 16]

/-- R104: CMP.INIT loads the four initial values, whatever the registers held, and changes nothing else but pc. -/
def Obligations.CmpInitLoadsInitialValues : Prop :=
  ∀ s : State, exec .cmpInit s =
    .next { s with
      regs := ⟨0x243F6A88, 0x85A308D3, 0x13198A2E, 0x03707344⟩
      pc := ⟨0x6, 0, 0, 0⟩ }

/-- R107, R108: CMP.ROUND: all four temporaries from the registers as the round began, then all four registers; nothing
else changes but pc. -/
def Obligations.CmpRoundMixesRegisters : Prop :=
  ∀ (s : State) (q : Nibble),
    let r := q.toNat
    let a := s.regs.a
    let b := s.regs.b
    let c := s.regs.c
    let d := s.regs.d
    let rcon := fun k : Fin 16 => s.rcon.get k
    let tA := rotl (a + selF b c d + s.w + rcon (Fin.ofNat 16 r)) (r % 13 + 1)
    let tB := rotl (b + selG c d a + s.w + rcon (Fin.ofNat 16 (r + 3))) (r % 17 + 1) + 0xA5A5A5A5
    let tC := rotl (c + selH d a b + s.w + rcon (Fin.ofNat 16 (r + 6))) (r % 19 + 1) ^^^ tA
    let tD := rotl (d + selF a b c + s.w + rcon (Fin.ofNat 16 (r + 9))) (r % 23 + 1) + 0x5A5A5A5A
    exec (.cmpRound q) s =
      .next { s with
        regs := ⟨tA ^^^ (tB >>> (r % 5 + 1)), tB ^^^ (tC <<< (r % 7 + 1)), tC ^^^ (tD >>> (r % 11 + 1)),
          tD ^^^ (tA <<< (r % 13 + 1))⟩
        pc := if r < 15 then ⟨0x7, q + 1, 0, s.pc.i⟩ else ⟨0x8, 0, 0, s.pc.i⟩ }

/-- R110, R111: CMP.FFWD mixes the word into each register, and changes nothing else but pc. That the loop is left for I+1
above m/4 is log 11, the model's choice; the grouping of A's line is log 17. -/
def Obligations.CmpFfwdMixesWord : Prop :=
  ∀ s : State, exec .cmpFfwd s =
    .next { s with
      regs := ⟨s.regs.a ^^^ (s.w + 0xDEADBEEF), s.regs.b + (s.w ^^^ 0x0F0F0F0F), s.regs.c ^^^ rotl s.w 17,
        s.regs.d + rotl s.w 3⟩
      pc := if s.pc.i + 1 < s.n / 4 + 3 then ⟨0x6, 0, 0, s.pc.i + 1⟩ else ⟨0x9, 0, 0, 0⟩ }

/-- R73, R112, R185, R186: ABSORB i. From WR.LOAD, 18 operations later the registers hold `Absorb` of the word, W still
holds it, and the sequencer is past the feed-forward. That the loop is left for i+1 above m/4, which R146 gives no row and no
run reaches, is log 11, the model's choice; the grouping of A's feed-forward line is log 17. -/
def Obligations.AbsorbTakesEighteenOperations : Prop :=
  ∀ (s : State) (i : Nat) (b0 b1 b2 b3 : Byte), s.startClash = false → s.pc = ⟨0x6, 0, 0, i⟩ →
    Memory.read? (4 * i) s.pad = some b0 → Memory.read? (4 * i + 1) s.pad = some b1 →
    Memory.read? (4 * i + 2) s.pad = some b2 → Memory.read? (4 * i + 3) s.pad = some b3 →
    run 18 s = .next { s with
      w := le32 b0 b1 b2 b3
      regs := absorb s.rcon s.regs (le32 b0 b1 b2 b3)
      pc := if i + 1 < s.n / 4 + 3 then ⟨0x6, 0, 0, i + 1⟩ else ⟨0x9, 0, 0, 0⟩ }

/-! ### The Finalizer -/

/-- R121, R122: FIN.ROUND: eight updates in order, each from the values the ones before it left; nothing else changes but
pc. -/
def Obligations.FinRoundUpdatesInOrder : Prop :=
  ∀ (s : State) (q : Nibble),
    let r := q.toNat
    let b := s.regs.b
    let c := s.regs.c
    let d := s.regs.d
    let rcon := fun k : Fin 16 => s.rcon.get k
    let a1 := s.regs.a ^^^ rotl (selF b c d + rcon (Fin.ofNat 16 r)) (r % 7 + 1)
    let b1 := b ^^^ rotl (selG c d a1 + rcon (Fin.ofNat 16 (r + 4))) (r % 11 + 1)
    let c1 := c ^^^ rotl (selH d a1 b1 + rcon (Fin.ofNat 16 (r + 8))) (r % 13 + 1)
    let d1 := d ^^^ rotl (selF a1 b1 c1 + rcon (Fin.ofNat 16 (r + 2))) (r % 17 + 1)
    let a2 := a1 + (b1 ^^^ c1)
    let b2 := b1 + (c1 ^^^ d1)
    let c2 := c1 + (d1 ^^^ a2)
    let d2 := d1 + (a2 ^^^ b2)
    exec (.finRound q) s =
      .next { s with
        regs := ⟨a2, b2, c2, d2⟩
        pc := if r < 15 then ⟨0x9, q + 1, 0, 0⟩ else ⟨0xA, 0, 0, 0⟩ }

/-- R73, R120, R124: FINALIZE. From FIN.ROUND 0, 16 operations later the registers hold `Finalize` of what they held. -/
def Obligations.FinalizeTakesSixteenOperations : Prop :=
  ∀ s : State, s.startClash = false → s.pc = ⟨0x9, 0, 0, 0⟩ →
    run 16 s = .next { s with regs := finalize s.rcon s.regs, pc := ⟨0xA, 0, 0, 0⟩ }

/-- Every Finalizer round, and so the whole Finalizer, can be undone: different registers stay different (derived from
R121: each of its eight lines changes one register by a value of the other three). -/
def Obligations.FinalizerIsInjective : Prop :=
  ∀ (table : Vector Word 16) (s₁ s₂ : Regs),
    (∀ r, finRound table r s₁ = finRound table r s₂ → s₁ = s₂) ∧
      (finalize table s₁ = finalize table s₂ → s₁ = s₂)

/-! ### The Hex Encoder -/

/-- The characters of `0123456789abcdef` (R64). -/
def lowerHexDigits : List Char :=
  ['0', '1', '2', '3', '4', '5', '6', '7', '8', '9', 'a', 'b', 'c', 'd', 'e', 'f']

/-- R131, R64: HEX.EMIT writes OUT[8q+p] with the digit for bits 31-4p..28-4p of register q, all 32 cells; every other
cell and every other field is as before but pc. -/
def Obligations.HexEmitWritesDigits : Prop :=
  ∀ s : State, ∃ t, exec .hexEmit s = .next t ∧
    (∀ q p : Nat, q < 4 → p < 8 → ∃ x, [s.regs.a, s.regs.b, s.regs.c, s.regs.d][q]? = some x ∧
      Memory.read? (8 * q + p) t.out = lowerHexDigits[x.toNat / 2 ^ (28 - 4 * p) % 16]?) ∧
    (∀ a, 32 ≤ a → Memory.read? a t.out = Memory.read? a s.out) ∧
    t = { s with out := t.out, pc := ⟨0xB, 0, 0, 0⟩ }

/-- R133: the string has 32 characters, all of the lowercase alphabet, and two register tuples give the same string
exactly when they agree. -/
def Obligations.HexEncodeIsInjective : Prop :=
  ∀ s₁ s₂ : Regs,
    (hexEncode s₁).length = 32 ∧ (∀ c ∈ hexEncode s₁, c ∈ lowerHexDigits) ∧
      (hexEncode s₁ = hexEncode s₂ ↔ s₁ = s₂)

/-- R134: read as one hexadecimal number, the string spells A, B, C, D as a 128-bit number with A most significant. -/
def Obligations.DigestStringSpellsRegisters : Prop :=
  ∀ s : Regs,
    (hexEncode s).foldl (fun acc c => 16 * acc + lowerHexDigits.idxOf c) 0 =
      (s.a ++ s.b ++ s.c ++ s.d).toNat

/-! ### The sequencer and the host -/

/-- R141: an accepted start: N is latched, STATUS is BUSY, the command is taken, and nothing else changes but pc. -/
def Obligations.SeqStartAcceptsStart : Prop :=
  ∀ (s : State) (n : Nat), s.start = some n → (s.status = .idle ∨ s.status = .done) →
    (∀ c, s.msgCap = some c → n ≤ c) →
    exec .seqStart s =
      .next { s with
        n := n
        status := .busy
        start := none
        pc := if 0 < n then ⟨0x1, 0, 0, 0⟩ else ⟨0x2, 0, 0, 0⟩ }

/-- R141, U6, U10: where SEQ.START accepts no start: a run in progress, or a message above MSG_CAP, is refused. -/
def Obligations.SeqStartRefusals : Prop :=
  ∀ (s : State) (n : Nat), s.start = some n →
    (s.status = .busy → exec .seqStart s = .refused .startWhileBusy) ∧
    (∀ c, s.status ≠ .busy → s.msgCap = some c → c < n → exec .seqStart s = .refused (.startOverCapacity n))

/-- R141, R144: a resting block whose host has issued no start stays as it is (that the model takes a step then is its
choice: log 6), and a final state is exactly a resting one. -/
def Obligations.RestingBlockWaits : Prop :=
  (∀ s : State, s.pc = ⟨0x0, 0, 0, 0⟩ → s.start = none → step s = .next s) ∧
  (∀ s : State, s.isFinal = true ↔ s.pc = ⟨0x0, 0, 0, 0⟩ ∧ (s.status = .idle ∨ s.status = .done))

/-- R142: SEQ.DONE sets STATUS to DONE and rests; nothing else changes. -/
def Obligations.SeqDoneEndsRun : Prop :=
  ∀ s : State, exec .seqDone s = .next { s with status := .done, pc := ⟨0x0, 0, 0, 0⟩ }

/-- R143, R188, U7: while the block rests the host writes any byte of MSG, but for those of a message whose start it has
issued: that byte reads as written, every other as before, and nothing else changes. With a run in progress, or below the
length of a start that waits, the write is refused (log 9). That an index above MSG_CAP is written too is log 14, the model's
choice. -/
def Obligations.HostWritesMessage : Prop :=
  (∀ (s : State) (a : Nat) (b : Byte), s.status ≠ .busy → (∀ n, s.start = some n → n ≤ a) →
    ∃ t, hostWriteMsg a b s = .next t ∧ t.msgAt a = b ∧ (∀ x, x ≠ a → t.msgAt x = s.msgAt x) ∧
      t = { s with msg := t.msg }) ∧
  (∀ (s : State) (a : Nat) (b : Byte), s.status = .busy → hostWriteMsg a b s = .refused .msgWriteWhileBusy) ∧
  (∀ (s : State) (a n : Nat) (b : Byte), s.status ≠ .busy → s.start = some n → a < n →
    hostWriteMsg a b s = .refused (.msgWriteAfterStart a))

/-- R140, R141, R143, U10: while the block rests the host issues a start for any length up to MSG_CAP, which then stands;
while a run is in progress, or above MSG_CAP, it is refused. That it takes the place of a start that waits is log 8, the
model's choice. -/
def Obligations.HostIssuesStart : Prop :=
  (∀ (s : State) (n : Nat), s.status ≠ .busy → (∀ c, s.msgCap = some c → n ≤ c) →
    hostStart n s = .next { s with start := some n }) ∧
  (∀ (s : State) (n : Nat), s.status = .busy → hostStart n s = .refused .startWhileBusy) ∧
  (∀ (s : State) (n c : Nat), s.status ≠ .busy → s.msgCap = some c → c < n →
    hostStart n s = .refused (.startOverCapacity n))

/-- R163: every path on which an operation, a step or a move of the host stops. An operation faults only where WR.LOAD reads
a byte of PAD that holds no value (U9), whatever index it forms; what is refused is a reserved control word (U5), a start
while BUSY (U6), a write to MSG while BUSY (U7) or to a message whose start stands issued (R188, log 9), and a start above
MSG_CAP (U10). The model's forms of these stops are the logs 5, 8, 9 and 10. -/
def Obligations.StopsAreTheListedOnes : Prop :=
  (∀ (i : Instr) (s : State) (f : Fault), exec i s = .fault f ↔
    i = .wrLoad ∧ ∃ q, q < 4 ∧ f = .padUnwritten (4 * s.pc.i + q) ∧ Memory.read? (4 * s.pc.i + q) s.pad = none ∧
      ∀ p, p < q → (Memory.read? (4 * s.pc.i + p) s.pad).isSome) ∧
  (∀ (i : Instr) (s : State) (r : Refusal), exec i s = .refused r ↔
    (∃ k : Nibble, i = .padLen k ∧ 7 < k.toNat ∧ r = .reservedControlWord (0x4#4 ++ k)) ∨
    (i = .seqStart ∧ ∃ n, s.start = some n ∧
      ((s.status = .busy ∧ r = .startWhileBusy) ∨
        (s.status ≠ .busy ∧ (∃ c, s.msgCap = some c ∧ c < n) ∧ r = .startOverCapacity n)))) ∧
  (∀ (s : State) (f : Fault), step s = .fault f ↔
    s.startClash = false ∧ decode s.pc.controlWord = .ok .wrLoad ∧ exec .wrLoad s = .fault f) ∧
  (∀ (s : State) (r : Refusal), step s = .refused r ↔
    (s.startClash = true ∧ r = .startWhileBusy) ∨
    (s.startClash = false ∧ reservedWord s.pc.controlWord ∧ r = .reservedControlWord s.pc.controlWord) ∨
    (decode s.pc.controlWord = .ok .seqStart ∧ s.status ≠ .busy ∧
      ∃ n c, s.start = some n ∧ s.msgCap = some c ∧ c < n ∧ r = .startOverCapacity n)) ∧
  (∀ (mv : HostMove) (s : State) (f : Fault), mv.apply s ≠ .fault f) ∧
  (∀ (mv : HostMove) (s : State) (r : Refusal), mv.apply s = .refused r ↔
    (∃ a b, mv = .writeMsg a b ∧
      ((s.status = .busy ∧ r = .msgWriteWhileBusy) ∨
        (s.status ≠ .busy ∧ (∃ n, s.start = some n ∧ a < n) ∧ r = .msgWriteAfterStart a))) ∨
    (∃ n, mv = .start n ∧
      ((s.status = .busy ∧ r = .startWhileBusy) ∨
        (s.status ≠ .busy ∧ (∃ c, s.msgCap = some c ∧ c < n) ∧ r = .startOverCapacity n))))

/-- R180, R34: after reset STATUS is IDLE and the sequencer rests, in a final state, the table and MSG_CAP unaffected. The
model's choices beside that: no start stands (log 15), no cell of MSG, PAD or OUT is written (logs 4, 5, 15), and the host
reads nothing in OUT, where U8 says any value (log 12). -/
def Obligations.ResetRestsTheSequencer : Prop :=
  (∀ s : State,
    let t := applyReset s
    t.status = .idle ∧ t.pc = ⟨0x0, 0, 0, 0⟩ ∧ t.isFinal = true ∧ t.start = none ∧ t.rcon = s.rcon ∧
      t.msgCap = s.msgCap ∧
      (∀ a, Memory.read? a t.msg = none ∧ Memory.read? a t.pad = none ∧ Memory.read? a t.out = none) ∧
      (∀ p, hostReadOut p t = none)) ∧
  State.reset.status = .idle ∧ State.reset.pc = ⟨0x0, 0, 0, 0⟩ ∧ State.reset.rcon = Config.rcon

/-! ### Invariants -/

/-- R34: the invariant holds right after reset, for every table and every capacity. -/
def Obligations.ResetEstablishesInvariant : Prop :=
  State.reset.Inv ∧ ∀ table cap epoch, (State.afterReset table cap epoch).Inv

/-- R27, R35, R89, R146: every step keeps the invariant of the schedule. -/
def Obligations.StepKeepsInvariant : Prop :=
  ∀ s t : State, s.Inv → step s = .next t → t.Inv

/-- R143: every move the protocol gives the host keeps the invariant. -/
def Obligations.HostMoveKeepsInvariant : Prop :=
  ∀ (mv : HostMove) (s t : State), s.Inv → mv.apply s = .next t → t.Inv

/-- R35, R163: from every state of the invariant the step answers a next state. -/
def Obligations.InvariantStateSteps : Prop :=
  ∀ s : State, s.Inv → ∃ t, step s = .next t

/-- R163, R35: from every state reachable from reset by steps and the host's moves the step answers a next state, never a
fault and never a refusal. That a resting block with no start answers the same state is log 6, the model's choice. -/
def Obligations.ReachableStateSteps : Prop :=
  ∀ s : State, Reachable s → ∃ t, step s = .next t

/-- R44, R133: in every reachable state whose STATUS is DONE the host reads 32 characters of the alphabet. -/
def Obligations.DoneShowsHexString : Prop :=
  ∀ s : State, Reachable s → s.status = .done →
    ∃ text, hostReadDigest s = some text ∧ text.length = 32 ∧ ∀ c ∈ text, c ∈ lowerHexDigits

/-! ### The whole run -/

/-- R80, R89: the Padder's operations leave exactly the padded message in PAD[0..m-1], no byte at m or above written, and
the registers, W and MSG untouched. -/
def Obligations.PadderBuildsPaddedMessage : Prop :=
  ∀ (s : State) (n : Nat), s.readyFor n →
    ∃ t, run (1 + paddedLen n) s = .next t ∧ t.pc = ⟨0x5, 0, 0, 0⟩ ∧
      (∀ a, a < paddedLen n → Memory.read? a t.pad = (padMessage (s.message n))[a]?) ∧
      (∀ a, paddedLen n ≤ a → Memory.read? a t.pad = Memory.read? a s.pad) ∧
      t = { s with n := n, status := .busy, start := none, pad := t.pad, pc := t.pc }

/-- R146, R147, R73: the run goes through exactly the positions of the nested loops, in order, and there are
m + 18*(m/4) + 20 of them. -/
def Obligations.RunFollowsSchedule : Prop :=
  (∀ n, (runPositions n).length = paddedLen n + 18 * (paddedLen n / 4) + 20) ∧
  ∀ (s : State) (n k : Nat) (p : Position), s.readyFor n → (runPositions n)[k]? = some p →
    ∃ u, run k s = .next u ∧ u.pc = p

/-- R75: how many operations each unit performs in a run (by OP, R67). -/
def Obligations.OperationsPerUnit : Prop :=
  ∀ n : Nat,
    let count := fun ops : List Nibble => (runPositions n).countP fun p => ops.contains p.op
    let m := paddedLen n
    count [0x1, 0x2, 0x3, 0x4] = m ∧ count [0x6] = m / 4 ∧ count [0x5, 0x7, 0x8] = 1 + 17 * (m / 4) ∧
      count [0x9] = 16 ∧ count [0xA] = 1 ∧ count [0x0, 0xB] = 2

/-- R144, R145, R152: for every table, every length up to MSG_CAP, every content of MSG, and every state in which the
block rests: after the host's start the block is BUSY for all but the last of exactly m + 18*(m/4) + 20 operations,
never stops, ends final with STATUS DONE, and then the host reads CipherA128(RCON, MSG[0..n-1]). -/
def Obligations.RunComputesDigest : Prop :=
  ∀ (s : State) (n : Nat), s.readyFor n →
    let len := paddedLen n + 18 * (paddedLen n / 4) + 20
    (∀ k, 0 < k → k < len → ∃ u, run k s = .next u ∧ u.status = .busy ∧ u.isFinal = false) ∧
    ∃ t, run len s = .next t ∧ t.status = .done ∧ t.isFinal = true ∧
      hostReadDigest t = some (cipherA128 s.rcon (s.message n))

/-- R150: a run depends on the table, the length and the message bytes alone: two resting blocks that agree on these, and
differ in anything else, both come to the end of the run and show the same string. -/
def Obligations.RunsAreIndependent : Prop :=
  ∀ (s₁ s₂ : State) (n : Nat), s₁.readyFor n → s₂.readyFor n → s₁.rcon = s₂.rcon →
    (∀ a, a < n → s₁.msgAt a = s₂.msgAt a) →
    ∃ t₁ t₂ text, run (paddedLen n + 18 * (paddedLen n / 4) + 20) s₁ = .next t₁ ∧
      run (paddedLen n + 18 * (paddedLen n / 4) + 20) s₂ = .next t₂ ∧
      hostReadDigest t₁ = some text ∧ hostReadDigest t₂ = some text
end

