-- ==== Sys2Proof/Laws/Memory.lean ====
section
/-! SUPPORT. The laws of an address space: a read after a write, and the canonical form every write keeps. -/

namespace Sys2Proof.Machine

variable {α : Type}

@[simp] theorem Memory.read_nil (a : Nat) : Memory.read? a ([] : Memory α) = none := rfl

theorem Memory.read_cons (a b : Nat) (v : α) (m : Memory α) :
    Memory.read? a ((b, v) :: m) = if a = b then some v else Memory.read? a m := rfl

/-- What a read finds is listed. -/
theorem Memory.mem_of_read {a : Nat} {v : α} {m : Memory α} (h : Memory.read? a m = some v) : (a, v) ∈ m := by
  induction m with
  | nil => cases h
  | cons x m ih =>
    obtain ⟨b, u⟩ := x
    rw [Memory.read_cons] at h
    split at h
    · cases h; subst a; exact List.mem_cons_self
    · exact List.mem_cons_of_mem _ (ih h)

@[simp] theorem Memory.read_write_same (a : Nat) (v : α) (m : Memory α) :
    Memory.read? a (Memory.write a v m) = some v := by
  induction m with
  | nil => simp [Memory.write, Memory.read?]
  | cons x m ih =>
    obtain ⟨b, u⟩ := x
    simp only [Memory.write]
    split
    · simp [Memory.read?]
    · split
      · simp [Memory.read?]
      · simp [Memory.read?, *]

theorem Memory.read_write_other {a b : Nat} (h : a ≠ b) (v : α) (m : Memory α) :
    Memory.read? a (Memory.write b v m) = Memory.read? a m := by
  induction m with
  | nil => simp [Memory.write, Memory.read?, h]
  | cons x m ih =>
    obtain ⟨c, u⟩ := x
    simp only [Memory.write]
    split
    · simp [Memory.read?, h]
    · split
      · subst c; simp [Memory.read?, h]
      · simp [Memory.read?, ih]

/-- Every index of the space after a write is the written one or one of before. -/
theorem Memory.mem_write {a : Nat} {v : α} {m : Memory α} {x : Nat × α} (h : x ∈ Memory.write a v m) :
    x = (a, v) ∨ x ∈ m := by
  induction m with
  | nil => simpa [Memory.write] using h
  | cons y m ih =>
    obtain ⟨b, u⟩ := y
    simp only [Memory.write] at h
    split at h
    · simpa using h
    · split at h
      · rcases List.mem_cons.1 h with h | h <;> simp [h]
      · rcases List.mem_cons.1 h with h | h
        · simp [h]
        · rcases ih h with h | h <;> simp [h]

theorem Memory.wf_write {a : Nat} {v : α} {m : Memory α} (h : Memory.wf m) : Memory.wf (Memory.write a v m) := by
  induction m with
  | nil => simp [Memory.write, Memory.wf]
  | cons y m ih =>
    obtain ⟨b, u⟩ := y
    obtain ⟨hb, hm⟩ := List.pairwise_cons.1 h
    simp only [Memory.write]
    split
    · refine List.pairwise_cons.2 ⟨fun x hx => ?_, h⟩
      rcases List.mem_cons.1 hx with rfl | hx
      · assumption
      · exact Nat.lt_trans ‹a < b› (hb x hx)
    · split
      · subst a; exact List.pairwise_cons.2 ⟨hb, hm⟩
      · refine List.pairwise_cons.2 ⟨fun x hx => ?_, ih hm⟩
        rcases Memory.mem_write hx with rfl | hx
        · show b < a; omega
        · exact hb x hx

theorem Memory.wf_writeList {vs : List α} {a : Nat} {m : Memory α} (h : Memory.wf m) :
    Memory.wf (Memory.writeList a vs m) := by
  induction vs generalizing a m with
  | nil => exact h
  | cons v vs ih => exact ih (Memory.wf_write h)

theorem Memory.read_writeList_outside {vs : List α} {a b : Nat} {m : Memory α}
    (h : b < a ∨ a + vs.length ≤ b) : Memory.read? b (Memory.writeList a vs m) = Memory.read? b m := by
  induction vs generalizing a m with
  | nil => rfl
  | cons v vs ih =>
    simp only [List.length_cons] at h
    rw [Memory.writeList, ih (by omega), Memory.read_write_other (by omega)]

theorem Memory.read_writeList_inside {vs : List α} {a k : Nat} {m : Memory α} (h : k < vs.length) :
    Memory.read? (a + k) (Memory.writeList a vs m) = some vs[k] := by
  induction vs generalizing a m k with
  | nil => simp at h
  | cons v vs ih =>
    cases k with
    | zero =>
      rw [Memory.writeList, Memory.read_writeList_outside (by omega)]
      simp
    | succ k =>
      have h' : k < vs.length := by simpa using h
      have := ih (a := a + 1) (m := Memory.write a v m) h'
      rw [Memory.writeList, show a + (k + 1) = a + 1 + k by omega, this]
      simp

end Sys2Proof.Machine
end

