-- ==== Sys2Proof/Laws/State.lean ====
section
/-! SUPPORT. One lemma per field per update of the state, each true by unfolding the update once. -/

namespace Sys2Proof.Machine

variable (s : State)

@[simp] theorem setRegs_regs (r : Regs) : (setRegs r s).regs = r := rfl
@[simp] theorem setRegs_w (r : Regs) : (setRegs r s).w = s.w := rfl
@[simp] theorem setRegs_n (r : Regs) : (setRegs r s).n = s.n := rfl
@[simp] theorem setRegs_pc (r : Regs) : (setRegs r s).pc = s.pc := rfl
@[simp] theorem setRegs_status (r : Regs) : (setRegs r s).status = s.status := rfl
@[simp] theorem setRegs_msg (r : Regs) : (setRegs r s).msg = s.msg := rfl
@[simp] theorem setRegs_pad (r : Regs) : (setRegs r s).pad = s.pad := rfl
@[simp] theorem setRegs_out (r : Regs) : (setRegs r s).out = s.out := rfl
@[simp] theorem setRegs_rcon (r : Regs) : (setRegs r s).rcon = s.rcon := rfl
@[simp] theorem setRegs_msgCap (r : Regs) : (setRegs r s).msgCap = s.msgCap := rfl
@[simp] theorem setRegs_start (r : Regs) : (setRegs r s).start = s.start := rfl
@[simp] theorem setRegs_msgEpoch (r : Regs) : (setRegs r s).msgEpoch = s.msgEpoch := rfl

@[simp] theorem setW_regs (x : Word) : (setW x s).regs = s.regs := rfl
@[simp] theorem setW_w (x : Word) : (setW x s).w = x := rfl
@[simp] theorem setW_n (x : Word) : (setW x s).n = s.n := rfl
@[simp] theorem setW_pc (x : Word) : (setW x s).pc = s.pc := rfl
@[simp] theorem setW_status (x : Word) : (setW x s).status = s.status := rfl
@[simp] theorem setW_msg (x : Word) : (setW x s).msg = s.msg := rfl
@[simp] theorem setW_pad (x : Word) : (setW x s).pad = s.pad := rfl
@[simp] theorem setW_out (x : Word) : (setW x s).out = s.out := rfl
@[simp] theorem setW_rcon (x : Word) : (setW x s).rcon = s.rcon := rfl
@[simp] theorem setW_msgCap (x : Word) : (setW x s).msgCap = s.msgCap := rfl
@[simp] theorem setW_start (x : Word) : (setW x s).start = s.start := rfl
@[simp] theorem setW_msgEpoch (x : Word) : (setW x s).msgEpoch = s.msgEpoch := rfl

@[simp] theorem setN_regs (x : Nat) : (setN x s).regs = s.regs := rfl
@[simp] theorem setN_w (x : Nat) : (setN x s).w = s.w := rfl
@[simp] theorem setN_n (x : Nat) : (setN x s).n = x := rfl
@[simp] theorem setN_pc (x : Nat) : (setN x s).pc = s.pc := rfl
@[simp] theorem setN_status (x : Nat) : (setN x s).status = s.status := rfl
@[simp] theorem setN_msg (x : Nat) : (setN x s).msg = s.msg := rfl
@[simp] theorem setN_pad (x : Nat) : (setN x s).pad = s.pad := rfl
@[simp] theorem setN_out (x : Nat) : (setN x s).out = s.out := rfl
@[simp] theorem setN_rcon (x : Nat) : (setN x s).rcon = s.rcon := rfl
@[simp] theorem setN_msgCap (x : Nat) : (setN x s).msgCap = s.msgCap := rfl
@[simp] theorem setN_start (x : Nat) : (setN x s).start = s.start := rfl
@[simp] theorem setN_msgEpoch (x : Nat) : (setN x s).msgEpoch = s.msgEpoch := rfl

@[simp] theorem setPc_regs (p : Position) : (setPc p s).regs = s.regs := rfl
@[simp] theorem setPc_w (p : Position) : (setPc p s).w = s.w := rfl
@[simp] theorem setPc_n (p : Position) : (setPc p s).n = s.n := rfl
@[simp] theorem setPc_pc (p : Position) : (setPc p s).pc = p := rfl
@[simp] theorem setPc_status (p : Position) : (setPc p s).status = s.status := rfl
@[simp] theorem setPc_msg (p : Position) : (setPc p s).msg = s.msg := rfl
@[simp] theorem setPc_pad (p : Position) : (setPc p s).pad = s.pad := rfl
@[simp] theorem setPc_out (p : Position) : (setPc p s).out = s.out := rfl
@[simp] theorem setPc_rcon (p : Position) : (setPc p s).rcon = s.rcon := rfl
@[simp] theorem setPc_msgCap (p : Position) : (setPc p s).msgCap = s.msgCap := rfl
@[simp] theorem setPc_start (p : Position) : (setPc p s).start = s.start := rfl
@[simp] theorem setPc_msgEpoch (p : Position) : (setPc p s).msgEpoch = s.msgEpoch := rfl

@[simp] theorem takeStart_regs : (takeStart s).regs = s.regs := rfl
@[simp] theorem takeStart_w : (takeStart s).w = s.w := rfl
@[simp] theorem takeStart_n : (takeStart s).n = s.n := rfl
@[simp] theorem takeStart_pc : (takeStart s).pc = s.pc := rfl
@[simp] theorem takeStart_status : (takeStart s).status = s.status := rfl
@[simp] theorem takeStart_msg : (takeStart s).msg = s.msg := rfl
@[simp] theorem takeStart_pad : (takeStart s).pad = s.pad := rfl
@[simp] theorem takeStart_out : (takeStart s).out = s.out := rfl
@[simp] theorem takeStart_rcon : (takeStart s).rcon = s.rcon := rfl
@[simp] theorem takeStart_msgCap : (takeStart s).msgCap = s.msgCap := rfl
@[simp] theorem takeStart_start : (takeStart s).start = none := rfl
@[simp] theorem takeStart_msgEpoch : (takeStart s).msgEpoch = s.msgEpoch := rfl

@[simp] theorem setStatus_regs (x : Status) : (setStatus x s).regs = s.regs := rfl
@[simp] theorem setStatus_w (x : Status) : (setStatus x s).w = s.w := rfl
@[simp] theorem setStatus_n (x : Status) : (setStatus x s).n = s.n := rfl
@[simp] theorem setStatus_pc (x : Status) : (setStatus x s).pc = s.pc := rfl
@[simp] theorem setStatus_status (x : Status) : (setStatus x s).status = x := rfl
@[simp] theorem setStatus_msg (x : Status) : (setStatus x s).msg = s.msg := rfl
@[simp] theorem setStatus_pad (x : Status) : (setStatus x s).pad = s.pad := rfl
@[simp] theorem setStatus_out (x : Status) : (setStatus x s).out = s.out := rfl
@[simp] theorem setStatus_rcon (x : Status) : (setStatus x s).rcon = s.rcon := rfl
@[simp] theorem setStatus_msgCap (x : Status) : (setStatus x s).msgCap = s.msgCap := rfl
@[simp] theorem setStatus_start (x : Status) : (setStatus x s).start = s.start := rfl
@[simp] theorem setStatus_msgEpoch (x : Status) : (setStatus x s).msgEpoch = s.msgEpoch := rfl

@[simp] theorem writePad_regs (a : Nat) (b : Byte) : (writePad a b s).regs = s.regs := rfl
@[simp] theorem writePad_w (a : Nat) (b : Byte) : (writePad a b s).w = s.w := rfl
@[simp] theorem writePad_n (a : Nat) (b : Byte) : (writePad a b s).n = s.n := rfl
@[simp] theorem writePad_pc (a : Nat) (b : Byte) : (writePad a b s).pc = s.pc := rfl
@[simp] theorem writePad_status (a : Nat) (b : Byte) : (writePad a b s).status = s.status := rfl
@[simp] theorem writePad_msg (a : Nat) (b : Byte) : (writePad a b s).msg = s.msg := rfl
@[simp] theorem writePad_pad (a : Nat) (b : Byte) : (writePad a b s).pad = Memory.write a b s.pad := rfl
@[simp] theorem writePad_out (a : Nat) (b : Byte) : (writePad a b s).out = s.out := rfl
@[simp] theorem writePad_rcon (a : Nat) (b : Byte) : (writePad a b s).rcon = s.rcon := rfl
@[simp] theorem writePad_msgCap (a : Nat) (b : Byte) : (writePad a b s).msgCap = s.msgCap := rfl
@[simp] theorem writePad_start (a : Nat) (b : Byte) : (writePad a b s).start = s.start := rfl
@[simp] theorem writePad_msgEpoch (a : Nat) (b : Byte) : (writePad a b s).msgEpoch = s.msgEpoch := rfl

@[simp] theorem writeOut_regs (text : List Char) : (writeOut text s).regs = s.regs := rfl
@[simp] theorem writeOut_w (text : List Char) : (writeOut text s).w = s.w := rfl
@[simp] theorem writeOut_n (text : List Char) : (writeOut text s).n = s.n := rfl
@[simp] theorem writeOut_pc (text : List Char) : (writeOut text s).pc = s.pc := rfl
@[simp] theorem writeOut_status (text : List Char) : (writeOut text s).status = s.status := rfl
@[simp] theorem writeOut_msg (text : List Char) : (writeOut text s).msg = s.msg := rfl
@[simp] theorem writeOut_pad (text : List Char) : (writeOut text s).pad = s.pad := rfl
@[simp] theorem writeOut_out (text : List Char) : (writeOut text s).out = Memory.writeList 0 text s.out := rfl
@[simp] theorem writeOut_rcon (text : List Char) : (writeOut text s).rcon = s.rcon := rfl
@[simp] theorem writeOut_msgCap (text : List Char) : (writeOut text s).msgCap = s.msgCap := rfl
@[simp] theorem writeOut_start (text : List Char) : (writeOut text s).start = s.start := rfl
@[simp] theorem writeOut_msgEpoch (text : List Char) : (writeOut text s).msgEpoch = s.msgEpoch := rfl

@[simp] theorem advance_regs (ins : Instr) : (advance ins s).regs = s.regs := rfl
@[simp] theorem advance_w (ins : Instr) : (advance ins s).w = s.w := rfl
@[simp] theorem advance_n (ins : Instr) : (advance ins s).n = s.n := rfl
@[simp] theorem advance_pc (ins : Instr) : (advance ins s).pc = successor ins s.pc s.n := rfl
@[simp] theorem advance_status (ins : Instr) : (advance ins s).status = s.status := rfl
@[simp] theorem advance_msg (ins : Instr) : (advance ins s).msg = s.msg := rfl
@[simp] theorem advance_pad (ins : Instr) : (advance ins s).pad = s.pad := rfl
@[simp] theorem advance_out (ins : Instr) : (advance ins s).out = s.out := rfl
@[simp] theorem advance_rcon (ins : Instr) : (advance ins s).rcon = s.rcon := rfl
@[simp] theorem advance_msgCap (ins : Instr) : (advance ins s).msgCap = s.msgCap := rfl
@[simp] theorem advance_start (ins : Instr) : (advance ins s).start = s.start := rfl
@[simp] theorem advance_msgEpoch (ins : Instr) : (advance ins s).msgEpoch = s.msgEpoch := rfl

end Sys2Proof.Machine
end

