-- ==== Sys2Proof/Laws/Ops.lean ====
section
/-! SUPPORT. For each shared operation, once, everything it can do. -/

namespace Sys2Proof.Machine

/-- The padded message of a length that fits ends within the size R9 derives for PAD. -/
theorem paddedLen_le_of_fits {cap n : Nat} (h : fits (some cap) n = true) : paddedLen n ≤ paddedLen cap := by
  have hk : n / 4 ≤ cap / 4 := Nat.div_le_div_right (of_decide_eq_true h)
  unfold paddedLen
  omega

theorem readPad_of_read {s : State} {a : Nat} {b : Byte} (hb : Memory.read? a s.pad = some b) :
    readPad a s = .ok b := by
  simp [readPad, hb]

theorem readPad_of_unwritten {s : State} {a : Nat} (hb : Memory.read? a s.pad = none) :
    readPad a s = .error (.padUnwritten a) := by
  simp [readPad, hb]

theorem readPadWord_of_read {s : State} {a : Nat} {b0 b1 b2 b3 : Byte}
    (h0 : Memory.read? a s.pad = some b0) (h1 : Memory.read? (a + 1) s.pad = some b1)
    (h2 : Memory.read? (a + 2) s.pad = some b2) (h3 : Memory.read? (a + 3) s.pad = some b3) :
    readPadWord a s = .ok (le32 b0 b1 b2 b3) := by
  simp [readPadWord, readPad_of_read h0, readPad_of_read h1, readPad_of_read h2, readPad_of_read h3]

/-- The one shape of a Padder operation: it answers this next state, whatever the index. -/
theorem storePadByte_eq (ins : Instr) (a : Nat) (b : Byte) (s : State) :
    storePadByte ins a b s =
      .next { s with pad := Memory.write a b s.pad, pc := successor ins s.pc s.n } := rfl

/-- SEQ.START accepting a command: the one shape in which it answers a next state. -/
theorem acceptStart_next {nHost : Nat} {s t : State} (h : acceptStart nHost s = .next t) :
    s.status ≠ .busy ∧ fits s.msgCap nHost = true ∧
      t = { s with n := nHost, status := .busy, start := none, pc := successor .seqStart s.pc nHost } := by
  unfold acceptStart at h
  split at h
  · cases h
  · split at h
    · cases h; exact ⟨‹_›, ‹_›, rfl⟩
    · cases h

/-- The byte a Padder operation stores and the index it stores it at (R85 to R88). -/
inductive PadStore (s : State) : Instr → Nat → Byte → Prop where
  | copy : PadStore s .padCopy s.pc.j (s.msgAt s.pc.j)
  | term : PadStore s .padTerm s.n termByte
  | zero : PadStore s .padZero (s.n + 1 + s.pc.j) fillByte
  | len (k : Nibble) : k.toNat ≤ 7 → PadStore s (.padLen k) (lenFieldAt s.n + k.toNat) (lenByte s.n k.toNat)

/-- What an operation that writes A, B, C and D writes (R21). -/
inductive RegsWrite (s : State) : Instr → Regs → Prop where
  | init : RegsWrite s .cmpInit iv
  | round (r : Nibble) : RegsWrite s (.cmpRound r) (cmpRound s.rcon s.w r.toNat s.regs)
  | ffwd : RegsWrite s .cmpFfwd (feedForward s.w s.regs)
  | fin (r : Nibble) : RegsWrite s (.finRound r) (finRound s.rcon r.toNat s.regs)

/-- Everything operation `i` can do when it answers a next state: only the fields named differ. -/
inductive Effect (i : Instr) (s : State) : State → Prop where
  | rests : i = .seqStart → s.start = none → Effect i s s
  | accepts (nHost : Nat) : i = .seqStart → s.start = some nHost → s.status ≠ .busy → fits s.msgCap nHost = true →
      Effect i s { s with n := nHost, status := .busy, start := none, pc := successor .seqStart s.pc nHost }
  | stores (a : Nat) (b : Byte) : PadStore s i a b →
      Effect i s { s with pad := Memory.write a b s.pad, pc := successor i s.pc s.n }
  | loads (x : Word) : i = .wrLoad → readPadWord (4 * s.pc.i) s = .ok x →
      Effect i s { s with w := x, pc := successor i s.pc s.n }
  | mixes (u : Regs) : RegsWrite s i u → Effect i s { s with regs := u, pc := successor i s.pc s.n }
  | emits : i = .hexEmit → Effect i s (advance i (writeOut (hexEncode s.regs) s))
  | ends : i = .seqDone → Effect i s { s with status := .done, pc := successor i s.pc s.n }

theorem storePadByte_effect {i : Instr} {a : Nat} {b : Byte} {s t : State} (hs : PadStore s i a b)
    (h : storePadByte i a b s = .next t) : Effect i s t := by
  cases h
  exact .stores a b hs

theorem setRegs_effect {i : Instr} {u : Regs} {s t : State} (hs : RegsWrite s i u)
    (h : Host.Outcome.next (advance i (setRegs u s)) = (Host.Outcome.next t : Outcome)) : Effect i s t := by
  cases h
  exact .mixes u hs

/-- The inversion of exec: an operation that answers a next state has one of the effects above. -/
theorem exec_effect {i : Instr} {s t : State} (h : exec i s = .next t) : Effect i s t := by
  cases i with
  | seqStart =>
    simp only [exec, execSeqStart] at h
    split at h
    · cases h; exact .rests rfl ‹_›
    · next nHost hs =>
      obtain ⟨h1, h2, rfl⟩ := acceptStart_next h
      exact .accepts nHost rfl hs h1 h2
  | padCopy => exact storePadByte_effect .copy h
  | padTerm => exact storePadByte_effect .term h
  | padZero => exact storePadByte_effect .zero h
  | padLen k =>
    simp only [exec, execPadLen] at h
    split at h
    · exact storePadByte_effect (.len k ‹_›) h
    · cases h
  | wrLoad =>
    simp only [exec, execWrLoad] at h
    split at h
    · next x hx => cases h; exact .loads x rfl hx
    · cases h
  | cmpInit => exact setRegs_effect .init h
  | cmpRound r => exact setRegs_effect (.round r) h
  | cmpFfwd => exact setRegs_effect .ffwd h
  | finRound r => exact setRegs_effect (.fin r) h
  | hexEmit =>
    obtain rfl := Host.Outcome.next.inj h
    exact .emits rfl
  | seqDone => cases h; exact .ends rfl

/-- No operation takes an address space out of its canonical form. -/
theorem exec_keeps_canonical {i : Instr} {s t : State} (h : exec i s = .next t)
    (hm : Memory.wf s.msg) (hp : Memory.wf s.pad) (ho : Memory.wf s.out) :
    Memory.wf t.msg ∧ Memory.wf t.pad ∧ Memory.wf t.out := by
  cases exec_effect h with
  | stores a b _ => exact ⟨hm, Memory.wf_write hp, ho⟩
  | emits _ =>
    simp only [advance_msg, advance_pad, advance_out, writeOut_msg, writeOut_pad, writeOut_out]
    exact ⟨hm, hp, Memory.wf_writeList ho⟩
  | _ => exact ⟨hm, hp, ho⟩

theorem reset_canonical : Memory.wf State.reset.msg ∧ Memory.wf State.reset.pad ∧ Memory.wf State.reset.out :=
  ⟨.nil, .nil, .nil⟩

@[simp] theorem hexEncode_length (s : Regs) : (hexEncode s).length = 32 := rfl

end Sys2Proof.Machine
end

