-- ==== Sys2Proof/Laws/PerInstr.lean ====
section
/-! SUPPORT. Facts stated of every instruction, one lemma per constructor. -/

namespace Sys2Proof.Laws

/-- The row of spec/opcode_table.json an operation belongs to: the row's match and mask (R76). -/
def tableRow : Instr → BitVec 8 × BitVec 8
  | .seqStart => (0x00, 0xFF)
  | .padCopy => (0x10, 0xFF)
  | .padTerm => (0x20, 0xFF)
  | .padZero => (0x30, 0xFF)
  | .padLen _ => (0x40, 0xF8)
  | .cmpInit => (0x50, 0xFF)
  | .wrLoad => (0x60, 0xFF)
  | .cmpRound _ => (0x70, 0xF0)
  | .cmpFfwd => (0x80, 0xFF)
  | .finRound _ => (0x90, 0xF0)
  | .hexEmit => (0xA0, 0xFF)
  | .seqDone => (0xB0, 0xFF)

namespace TableRow

/-- A well-formed operation's control word selects the operation's own row (R76). -/
def Statement (i : Instr) : Prop := i.wellFormed = true → encode i &&& (tableRow i).2 = (tableRow i).1

theorem padLen_all : ∀ k : Nibble, k.toNat ≤ 7 → encode (.padLen k) &&& 0xF8 = 0x40 := by decide
theorem cmpRound_all : ∀ r : Nibble, encode (.cmpRound r) &&& 0xF0 = 0x70 := by decide
theorem finRound_all : ∀ r : Nibble, encode (.finRound r) &&& 0xF0 = 0x90 := by decide

theorem seqStart : Statement .seqStart := fun _ => by decide
theorem padCopy : Statement .padCopy := fun _ => by decide
theorem padTerm : Statement .padTerm := fun _ => by decide
theorem padZero : Statement .padZero := fun _ => by decide
theorem padLen (k : Nibble) : Statement (.padLen k) := fun h => padLen_all k (of_decide_eq_true h)
theorem cmpInit : Statement .cmpInit := fun _ => by decide
theorem wrLoad : Statement .wrLoad := fun _ => by decide
theorem cmpRound (r : Nibble) : Statement (.cmpRound r) := fun _ => cmpRound_all r
theorem cmpFfwd : Statement .cmpFfwd := fun _ => by decide
theorem finRound (r : Nibble) : Statement (.finRound r) := fun _ => finRound_all r
theorem hexEmit : Statement .hexEmit := fun _ => by decide
theorem seqDone : Statement .seqDone := fun _ => by decide

end TableRow

end Sys2Proof.Laws
end

