-- ==== Sys2Proof/Laws/Run.lean ====
section
/-! SUPPORT. Laws of runs of several operations, and the one induction over reachable states. -/

namespace Sys2Proof.Machine

@[simp] theorem run_zero (s : State) : run 0 s = .next s := rfl

theorem run_succ (k : Nat) (s : State) :
    run (k + 1) s =
      match step s with
      | .next t => run k t
      | .fault r => .fault r
      | .refused r => .refused r := rfl

/-- `run` is the host's own run of the machine. -/
theorem run_eq_core_run (k : Nat) (s : State) : run k s = Host.Core.run Sys2Proof.core k s := by
  induction k generalizing s with
  | zero => rfl
  | succ k ih =>
    refine Eq.trans ?_ (Host.Core.run.eq_2 Sys2Proof.core s k).symm
    rw [run_succ]
    cases ho : step s with
    | next t => rw [show Sys2Proof.core.step s = .next t from ho]; exact ih t
    | fault r => rw [show Sys2Proof.core.step s = .fault r from ho]; rfl
    | refused r => rw [show Sys2Proof.core.step s = .refused r from ho]; rfl

theorem run_succ_of_next {k : Nat} {s t : State} (h : step s = .next t) : run (k + 1) s = run k t := by
  rw [run_succ, h]

theorem run_add_of_next {j k : Nat} {s t : State} (h : run j s = .next t) : run (j + k) s = run k t := by
  induction j generalizing s with
  | zero => cases h; rw [Nat.zero_add]
  | succ j ih =>
    rw [run_succ] at h
    rw [Nat.add_right_comm, run_succ]
    split at h
    · exact ih h
    · cases h
    · cases h

theorem reachable_run {k : Nat} {s t : State} (hs : Reachable s) (h : run k s = .next t) : Reachable t := by
  induction k generalizing s with
  | zero => cases h; exact hs
  | succ k ih =>
    rw [run_succ] at h
    split at h
    · next u hu => exact ih (.step s u hs hu) h
    · cases h
    · cases h

/-- What holds after every first reset, and is kept by every step and every move of the host, holds of every reachable
state. -/
theorem Reachable.holds {P : State → Prop} (hr : ∀ table cap epoch, P (State.afterReset table cap epoch))
    (hs : ∀ s t, P s → Sys2Proof.Machine.step s = .next t → P t)
    (hm : ∀ (mv : HostMove) s t, P s → mv.apply s = .next t → P t) {s : State} (h : Reachable s) : P s := by
  induction h with
  | reset table cap epoch => exact hr table cap epoch
  | step s t _ hst ih => exact hs s t ih hst
  | move mv s t _ hst ih => exact hm mv s t ih hst

/-- With no start in the way, the step is the operation pc names. -/
theorem step_of_decode {s : State} {i : Instr} (hc : s.startClash = false) (hd : decode s.pc.controlWord = .ok i) :
    step s = exec i s := by
  unfold step
  rw [hc, hd]
  rfl

/-- The inversion of the step: it goes on only where no start clashes and pc names an operation that goes on. -/
theorem step_next {s t : State} (h : step s = .next t) :
    s.startClash = false ∧ ∃ i, decode s.pc.controlWord = .ok i ∧ exec i s = .next t := by
  unfold step at h
  split at h
  · cases h
  · next hc =>
    split at h
    · next i hd => exact ⟨by simpa using hc, i, hd, h⟩
    · cases h

/-- In a run a Padder operation stores inside the padded message. -/
theorem PadStore.lt_paddedLen {s : State} {i : Instr} {a : Nat} {b : Byte} (hs : PadStore s i a b)
    (h : countersInRange i s.pc s.n = true) : a < paddedLen s.n := by
  cases hs with
  | copy =>
    have := (of_decide_eq_true h).1
    unfold paddedLen; omega
  | term => unfold paddedLen; omega
  | zero =>
    have := (of_decide_eq_true h).1
    unfold zeroFill at this; unfold paddedLen; omega
  | len k hk => unfold paddedLen lenFieldAt; omega

end Sys2Proof.Machine
end

