-- ==== Sys2Proof/Tests/Slice0.lean ====
section
/-! SUPPORT. Tests of single operations, their expected values taken from spec/95_test_vectors.md and the examples of
the rules named, never from the model; and, for every statement with hypotheses, a state that meets them. -/

namespace Sys2Proof.Tests

open Sys2Proof.Machine

/-! ### Well-formedness -/

theorem test_padLen_8_ill_formed : (Instr.padLen 8).wellFormed = false := by decide
theorem test_padLen_7_well_formed : (Instr.padLen 7).wellFormed = true := by decide

/-! ### Decoding: every operation's word written out from R67, and spec/95 V-SCHED's reserved words -/

theorem test_decode_seqStart : decode 0b00000000 = .ok .seqStart := by decide
theorem test_decode_padCopy : decode 0b00010000 = .ok .padCopy := by decide
theorem test_decode_padTerm : decode 0b00100000 = .ok .padTerm := by decide
theorem test_decode_padZero : decode 0b00110000 = .ok .padZero := by decide
theorem test_decode_padLen_7 : decode 0b01000111 = .ok (.padLen 7) := by decide
theorem test_decode_cmpInit : decode 0b01010000 = .ok .cmpInit := by decide
theorem test_decode_wrLoad : decode 0b01100000 = .ok .wrLoad := by decide
theorem test_decode_cmpRound_15 : decode 0b01111111 = .ok (.cmpRound 15) := by decide
theorem test_decode_cmpFfwd : decode 0b10000000 = .ok .cmpFfwd := by decide
theorem test_decode_finRound_12 : decode 0b10011100 = .ok (.finRound 12) := by decide
theorem test_decode_hexEmit : decode 0b10100000 = .ok .hexEmit := by decide
theorem test_decode_seqDone : decode 0b10110000 = .ok .seqDone := by decide
theorem test_decode_reserved_index : decode 0x01 = .error (.reservedIndex 0x01) ∧
    decode 0x48 = .error (.reservedIndex 0x48) ∧ decode 0x4F = .error (.reservedIndex 0x4F) ∧
    decode 0x5A = .error (.reservedIndex 0x5A) ∧ decode 0xB1 = .error (.reservedIndex 0xB1) := by decide
theorem test_decode_reserved_op : decode 0xC0 = .error (.reservedOp 0xC0) ∧ decode 0xFF = .error (.reservedOp 0xFF) := by
  decide
theorem test_decodeTableWord : decodeTableWord 8 0x9C = some (.finRound 12) ∧ decodeTableWord 8 0x48 = none := by decide

/-! ### Helpers: the test tables of spec/95 section 0, and small states -/

/-- The test table T0. Not the hardware's table. -/
def tableT0 : Vector Word 16 := Vector.replicate 16 0

/-- The test table TA: entry `i` is `i` times 0x11111111. Not the hardware's table. -/
def tableTA : Vector Word 16 := Vector.ofFn fun i => BitVec.ofNat 32 (i.val * 0x11111111)

/-- The registers most vectors start from. -/
def regs0 : Regs := ⟨0x243F6A88, 0x85A308D3, 0x13198A2E, 0x03707344⟩

/-- A state in a run for length `n`, at position `p`. -/
def inRun (table : Vector Word 16) (n : Nat) (p : Position) : State :=
  { State.afterReset table (some 100) 0 with n := n, status := .busy, pc := p }

/-- A resting state whose host has issued a start for `n` bytes. -/
def started (n : Nat) : State := { State.afterReset tableT0 (some 100) 0 with start := some n }

def padByte (a : Nat) : Outcome → Option Byte
  | .next t => Memory.read? a t.pad
  | _ => none

def regsOf : Outcome → Option Regs
  | .next t => some t.regs
  | _ => none

def pcOf : Outcome → Option Position
  | .next t => some t.pc
  | _ => none

def statusOf : Outcome → Option Status
  | .next t => some t.status
  | _ => none

def goesOn : Outcome → Bool
  | .next _ => true
  | _ => false

theorem exists_next_of_goesOn {o : Outcome} (h : goesOn o = true) : ∃ t, o = .next t := by
  cases o with
  | next t => exact ⟨t, rfl⟩
  | fault f => cases h
  | refused r => cases h

/-! ### One step of each operation -/

/-- R141's example: start with n_host = 3. -/
theorem test_seqStart : pcOf (step (started 3)) = some ⟨0x1, 0, 0, 0⟩ ∧ statusOf (step (started 3)) = some .busy := by
  decide
/-- R141: n_host = 0 goes to PAD.TERM; above MSG_CAP it is refused. -/
theorem test_seqStart_bounds : pcOf (step (started 0)) = some ⟨0x2, 0, 0, 0⟩ ∧ goesOn (step (started 101)) = false := by
  decide
/-- R85's example: MSG = 61 62 63, j = 1. -/
theorem test_padCopy :
    padByte 1 (step { inRun tableT0 3 ⟨0x1, 0, 1, 0⟩ with msg := [(0, 0x61), (1, 0x62), (2, 0x63)] }) = some 0x62 := by
  decide
/-- V-SCHED: (PAD.COPY, 0, 2, 0) with N = 4. -/
theorem test_padCopy_successor : pcOf (step (inRun tableT0 4 ⟨0x1, 0, 2, 0⟩)) = some ⟨0x1, 0, 3, 0⟩ := by decide
/-- R86's example n = 3, and V-SCHED: z = 0 skips PAD.ZERO. -/
theorem test_padTerm : padByte 3 (step (inRun tableT0 3 ⟨0x2, 0, 0, 0⟩)) = some 0x80 ∧
    pcOf (step (inRun tableT0 3 ⟨0x2, 0, 0, 0⟩)) = some ⟨0x4, 0, 0, 0⟩ := by decide
/-- R87's example n = 4: the last of three fill bytes is PAD[7]. -/
theorem test_padZero : padByte 7 (step (inRun tableT0 4 ⟨0x3, 0, 2, 0⟩)) = some 0x00 ∧
    pcOf (step (inRun tableT0 4 ⟨0x3, 0, 2, 0⟩)) = some ⟨0x4, 0, 0, 0⟩ := by decide
/-- R88's examples: n = 3 gives 0x18 at PAD[4], n = 32 gives 0x01 as the second byte. -/
theorem test_padLen : padByte 4 (step (inRun tableT0 3 ⟨0x4, 0, 0, 0⟩)) = some 0x18 ∧
    padByte 37 (step (inRun tableT0 32 ⟨0x4, 1, 0, 0⟩)) = some 0x01 := by decide
/-- V-LEN at n = 2^61 - 1 and n = 2^61 + 3. -/
theorem test_padLen_wrap : lenByte (2 ^ 61 - 1) 0 = 0xF8 ∧ lenByte (2 ^ 61 - 1) 7 = 0xFF ∧ lenByte (2 ^ 61 + 3) 0 = 0x18 ∧
    lenByte (2 ^ 61 + 3) 7 = 0x00 := by decide
/-- R104's example. -/
theorem test_cmpInit : regsOf (step (inRun tableT0 0 ⟨0x5, 0, 0, 0⟩)) = some regs0 := by decide
/-- R91's example: PAD[0..3] = 61 62 63 80. -/
theorem test_wrLoad :
    (match step { inRun tableT0 3 ⟨0x6, 0, 0, 0⟩ with pad := [(0, 0x61), (1, 0x62), (2, 0x63), (3, 0x80)] } with
      | .next t => some t.w
      | _ => none) = some 0x80636261 := by decide
/-- V-CR, table TA, r = 12. -/
theorem test_cmpRound_12 :
    regsOf (step { inRun tableTA 3 ⟨0x7, 12, 0, 0⟩ with regs := regs0, w := 0x80636261 }) =
      some ⟨0x369EDE41, 0xFB14E48C, 0x7D5EFB91, 0x1D1D7863⟩ := by decide
/-- V-CR, table TA, r = 15, all ones. -/
theorem test_cmpRound_15 :
    regsOf (step { inRun tableTA 3 ⟨0x7, 15, 0, 0⟩ with
      regs := ⟨0xFFFFFFFF, 0xFFFFFFFF, 0xFFFFFFFF, 0xFFFFFFFF⟩
      w := 0xFFFFFFFF }) = some ⟨0x9C1D9C04, 0x6D726D0F, 0xADBB55A5, 0x1D201DDA⟩ := by decide
/-- V-FF, first row. -/
theorem test_cmpFfwd :
    regsOf (step { inRun tableTA 3 ⟨0x8, 0, 0, 0⟩ with regs := regs0, w := 0x80636261 }) =
      some ⟨0x7B2E4BD8, 0x150F7641, 0xD7DA8AE8, 0x068B8650⟩ := by decide
/-- V-SCHED: (CMP.FFWD, 0, 0, 2) is the last word for N = 0 and not for N = 4. -/
theorem test_cmpFfwd_successor : pcOf (step (inRun tableT0 0 ⟨0x8, 0, 0, 2⟩)) = some ⟨0x9, 0, 0, 0⟩ ∧
    pcOf (step (inRun tableT0 4 ⟨0x8, 0, 0, 2⟩)) = some ⟨0x6, 0, 0, 3⟩ := by decide
/-- V-FR, table TA, r = 13. -/
theorem test_finRound_13 :
    regsOf (step { inRun tableTA 3 ⟨0x9, 13, 0, 0⟩ with regs := regs0 }) =
      some ⟨0x187A6D1A, 0xEE7B1D23, 0x523D2103, 0x7F9EFBAA⟩ := by decide
/-- V-FR, table TA, r = 7. -/
theorem test_finRound_7 :
    regsOf (step { inRun tableTA 3 ⟨0x9, 7, 0, 0⟩ with regs := regs0 }) =
      some ⟨0x2AD71802, 0xC7650EF7, 0x8032FDE2, 0x6B645C4C⟩ := by decide
/-- R131's example. -/
theorem test_hexEmit :
    (match step { inRun tableT0 3 ⟨0xA, 0, 0, 0⟩ with regs := ⟨0x00000001, 0xDEADBEEF, 0x00000000, 0x0A0B0C0D⟩ } with
      | .next t => (List.range 32).filterMap fun p => Memory.read? p t.out
      | _ => []) =
    ['0', '0', '0', '0', '0', '0', '0', '1', 'd', 'e', 'a', 'd', 'b', 'e', 'e', 'f',
     '0', '0', '0', '0', '0', '0', '0', '0', '0', 'a', '0', 'b', '0', 'c', '0', 'd'] := by decide
/-- R142. -/
theorem test_seqDone : pcOf (step (inRun tableT0 3 ⟨0xB, 0, 0, 0⟩)) = some ⟨0x0, 0, 0, 0⟩ ∧
    statusOf (step (inRun tableT0 3 ⟨0xB, 0, 0, 0⟩)) = some .done := by decide

/-- The word placed where the next step takes its operation is the one performed first after reset. -/
theorem test_withFetchWord : goesOn (step (State.reset.withFetchWord 8 0x00)) = true ∧
    statusOf (step (State.reset.withFetchWord 8 0x00)) = some .busy ∧
    statusOf (step (State.reset.withFetchWord 8 0xB0)) = some .done ∧
    goesOn (step (State.reset.withFetchWord 8 0x48)) = false := by decide

/-! ### Witnesses: states and operands that meet each statement's hypotheses -/

theorem witness_DecodeOfEncode : (Instr.padLen 7).wellFormed = true := by decide
theorem witness_EncodeOfDecode : decode 0x9F = .ok (.finRound 15) := by decide
theorem witness_DecodingRule : 0xC ≤ ((0xC0 : BitVec 8).extractLsb' 4 4).toNat ∧ (0x7F : BitVec 8).extractLsb' 4 4 = 0x7 ∧
    (0x90 : BitVec 8).extractLsb' 4 4 = 0x9 ∧ (0x48 : BitVec 8).extractLsb' 4 4 = 0x4 ∧
    ((0xB, .seqDone) ∈ plainOps ∧ (0xB1 : BitVec 8).extractLsb' 4 4 = 0xB) := by decide
theorem witness_ReservedControlWords : reservedWord (inRun tableT0 0 ⟨0x4, 8, 0, 0⟩).pc.controlWord ∧
    (inRun tableT0 0 ⟨0x4, 8, 0, 0⟩).startClash = false := ⟨.inr (.inl (by decide)), by decide⟩
theorem witness_ReservedControlWords_move :
    ∃ t, HostMove.apply (.writeMsg 0 0x61) (State.afterReset tableT0 (some 100) 0) = .next t :=
  exists_next_of_goesOn (by decide)
theorem witness_StepRunsDecodedOperation : (inRun tableT0 3 ⟨0x9, 12, 0, 0⟩).startClash = false ∧
    decode ((inRun tableT0 3 ⟨0x9, 12, 0, 0⟩).pc.op ++ (inRun tableT0 3 ⟨0x9, 12, 0, 0⟩).pc.r) = .ok (.finRound 12) := by
  decide
theorem witness_StartClashIsRefused :
    ({ inRun tableT0 3 ⟨0x5, 0, 0, 0⟩ with start := some 0 } : State).status = .busy ∧
      ({ inRun tableT0 3 ⟨0x5, 0, 0, 0⟩ with start := some 0 } : State).start = some 0 := by decide
/-- SuccessorTable's conditions at their bounds: N = 0 and 1, J + 1 = n and z, z = 0 at N = 3, R = 6 and 14, I + 1 = m/4. -/
theorem witness_SuccessorTable : 0 < 1 ∧ 1 + 1 < 3 ∧ 2 + 1 = 3 ∧ 0 < 3 - 0 % 4 ∧ 3 - 3 % 4 = 0 ∧ 1 + 1 < 3 - 0 % 4 ∧
    2 + 1 = 3 - 0 % 4 ∧ (6 : Nibble).toNat < 7 ∧ (14 : Nibble).toNat < 15 ∧ 1 + 1 < (4 * (0 / 4) + 12) / 4 ∧
    2 + 1 = (4 * (0 / 4) + 12) / 4 := by decide
theorem witness_SuccessorTable_exec : (∃ t, exec .seqStart (started 3) = .next t) ∧ (started 3).start.isSome :=
  ⟨exists_next_of_goesOn (by decide), by decide⟩
theorem witness_WritersOfEachField : ∃ t, exec .cmpInit (inRun tableT0 0 ⟨0x5, 0, 0, 0⟩) = .next t ∧
    t.regs ≠ (inRun tableT0 0 ⟨0x5, 0, 0, 0⟩).regs := ⟨_, rfl, by decide⟩
theorem witness_ControlFlowIsDataIndependent :
    (inRun tableT0 0 ⟨0x7, 3, 0, 1⟩).pc = (inRun tableTA 0 ⟨0x7, 3, 0, 1⟩).pc ∧
    (inRun tableT0 0 ⟨0x7, 3, 0, 1⟩).n = (inRun tableTA 0 ⟨0x7, 3, 0, 1⟩).n ∧
    (∃ t, exec (.cmpRound 3) (inRun tableT0 0 ⟨0x7, 3, 0, 1⟩) = .next t) ∧
    (∃ t, exec (.cmpRound 3) (inRun tableTA 0 ⟨0x7, 3, 0, 1⟩) = .next t) := ⟨rfl, rfl, ⟨_, rfl⟩, ⟨_, rfl⟩⟩
theorem witness_NothingFlowsBackward :
    inRun tableTA 0 ⟨0x2, 0, 0, 0⟩ =
      { inRun tableT0 0 ⟨0x2, 0, 0, 0⟩ with
        regs := (inRun tableTA 0 ⟨0x2, 0, 0, 0⟩).regs
        w := (inRun tableTA 0 ⟨0x2, 0, 0, 0⟩).w
        out := (inRun tableTA 0 ⟨0x2, 0, 0, 0⟩).out
        rcon := (inRun tableTA 0 ⟨0x2, 0, 0, 0⟩).rcon } ∧
    ∃ t, exec .padTerm (inRun tableT0 0 ⟨0x2, 0, 0, 0⟩) = .next t :=
  ⟨rfl, exists_next_of_goesOn (by decide)⟩
theorem witness_ReadAfterWrite : (5 : Nat) ≠ 6 ∧ Memory.wf ([(5, 0x80), (6, 0x00)] : Memory Byte) := by decide
theorem witness_EqualContentsAreEqualMemories : Memory.wf ([(0, 0x61), (7, 0x80)] : Memory Byte) ∧
    ∀ a, Memory.read? a ([(0, 0x61), (7, 0x80)] : Memory Byte) = Memory.read? a [(0, 0x61), (7, 0x80)] :=
  ⟨by decide, fun _ => rfl⟩
theorem witness_PaddingQuantities : (3 + 1 + 0) % 4 = 0 ∧ 3 ≤ 3 ∧ 4 ≤ 7 ∧ 7 ≤ 7 ∧ 8 ≤ 11 ∧ 11 ≤ 11 := by decide
theorem witness_LengthFieldWraps : 2 ^ 61 - 1 < 2 ^ 61 ∧ 7 ≤ 7 := by decide
/-- The empty message has its zero fill at indices 1 to 3 (E1). -/
theorem witness_PaddedMessageContract : ([] : List Byte).length + 1 ≤ 3 ∧ 3 ≤ paddedLen ([] : List Byte).length - 9 := by
  decide
theorem witness_PaddingIsInjective : ([0x61] : List Byte).length < 2 ^ 61 ∧ padMessage [0x61] = padMessage [0x61] := by
  decide
theorem witness_PadCopyStoresMessageByte : Memory.read? 99 ([(99, 0x80)] : Memory Byte) = some 0x80 := by decide
theorem witness_PadLenStoresLengthByte : (7 : Nibble).toNat ≤ 7 ∧ 7 < (8 : Nibble).toNat := by decide
/-- The last word of the largest message that fits. -/
theorem witness_WrLoadAssemblesWord :
    Memory.read? (4 * 27) ([(108, 1), (109, 2), (110, 3), (111, 4)] : Memory Byte) = some 1 ∧
    Memory.read? (4 * 27 + 1) ([(108, 1), (109, 2), (110, 3), (111, 4)] : Memory Byte) = some 2 ∧
    Memory.read? (4 * 27 + 2) ([(108, 1), (109, 2), (110, 3), (111, 4)] : Memory Byte) = some 3 ∧
    Memory.read? (4 * 27 + 3) ([(108, 1), (109, 2), (110, 3), (111, 4)] : Memory Byte) = some 4 := by decide
theorem witness_WrLoadOfUnwrittenByteFaults : 3 < 4 ∧
    (∀ p, p < 3 → (Memory.read? (4 * 0 + p) ([(0, 1), (1, 2), (2, 3)] : Memory Byte)).isSome) ∧
    Memory.read? (4 * 0 + 3) ([(0, 1), (1, 2), (2, 3)] : Memory Byte) = none := by decide
theorem witness_WordsOfPaddedMessage : (padMessage [0x61])[4 * 0]? = some 0x61 ∧
    (padMessage [0x61])[4 * 0 + 1]? = some 0x80 ∧ (padMessage [0x61])[4 * 0 + 2]? = some 0x00 ∧
    (padMessage [0x61])[4 * 0 + 3]? = some 0x00 := by decide
theorem witness_SelectorFunctions : 31 < 32 := by decide
theorem witness_ShiftsAndRotation : 31 ≤ 31 ∧ 31 < 32 ∧ 1 ≤ 31 := by decide

/-- A state at the first WR.LOAD of the empty message (E1). -/
def atFirstLoad : State :=
  { inRun tableT0 0 ⟨0x6, 0, 0, 0⟩ with pad := (List.range 12).map fun a => (a, if a = 0 then 0x80 else 0x00) }

theorem witness_AbsorbTakesEighteenOperations : atFirstLoad.startClash = false ∧ atFirstLoad.pc = ⟨0x6, 0, 0, 0⟩ ∧
    Memory.read? (4 * 0) atFirstLoad.pad = some 0x80 ∧
    Memory.read? (4 * 0 + 1) atFirstLoad.pad = some 0x00 ∧ Memory.read? (4 * 0 + 2) atFirstLoad.pad = some 0x00 ∧
    Memory.read? (4 * 0 + 3) atFirstLoad.pad = some 0x00 := by decide
theorem witness_FinalizeTakesSixteenOperations : (inRun tableTA 0 ⟨0x9, 0, 0, 0⟩).startClash = false ∧
    (inRun tableTA 0 ⟨0x9, 0, 0, 0⟩).pc = ⟨0x9, 0, 0, 0⟩ := by decide
theorem witness_FinalizerIsInjective : finRound tableTA 15 regs0 = finRound tableTA 15 regs0 := rfl
theorem witness_HexEmitWritesDigits : 3 < 4 ∧ 7 < 8 ∧ 32 ≤ 32 := by decide
theorem witness_SeqStartAcceptsStart : (started 100).start = some 100 ∧ (started 100).status = .idle ∧
    ∀ c, (started 100).msgCap = some c → 100 ≤ c :=
  ⟨rfl, rfl, fun _ h => Nat.le_of_eq (Option.some.inj h)⟩
theorem witness_SeqStartRefusals : (started 101).start = some 101 ∧ (started 101).status ≠ .busy ∧
    (started 101).msgCap = some 100 ∧ 100 < 101 := by decide
theorem witness_SeqStartRefusals_busy :
    ({ started 3 with status := .busy } : State).start = some 3 ∧ ({ started 3 with status := .busy } : State).status = .busy := by
  decide
theorem witness_RestingBlockWaits : (State.afterReset tableT0 none 0).pc = ⟨0x0, 0, 0, 0⟩ ∧
    (State.afterReset tableT0 none 0).start = none := by decide
/-- A write at the length of a start that waits, the lowest index it leaves free, and one below it. -/
theorem witness_HostWritesMessage : (started 3).status ≠ .busy ∧ (∀ n, (started 3).start = some n → n ≤ 3) ∧
    (started 3).start = some 3 ∧ 2 < 3 ∧ (inRun tableT0 3 ⟨0x5, 0, 0, 0⟩).status = .busy :=
  ⟨by decide, fun _ h => Nat.le_of_eq (Option.some.inj h).symm, rfl, by decide, rfl⟩
/-- A start of MSG_CAP while one waits, and one above it. -/
theorem witness_HostIssuesStart : (started 3).status ≠ .busy ∧ (∀ c, (started 3).msgCap = some c → 100 ≤ c) ∧
    (started 3).msgCap = some 100 ∧ 100 < 101 ∧ (inRun tableT0 3 ⟨0x5, 0, 0, 0⟩).status = .busy :=
  ⟨by decide, fun _ h => Nat.le_of_eq (Option.some.inj h), rfl, by decide, rfl⟩
/-- Each stop of StopsAreTheListedOnes is met. -/
theorem witness_StopsAreTheListedOnes :
    step (inRun tableT0 3 ⟨0x6, 0, 0, 30⟩) = .fault (.padUnwritten 120) ∧
    step (inRun tableT0 3 ⟨0x4, 8, 0, 0⟩) = .refused (.reservedControlWord 0x48) ∧
    exec (.padLen 8) (started 0) = .refused (.reservedControlWord 0x48) ∧
    step { started 3 with status := .busy } = .refused .startWhileBusy ∧
    step (started 101) = .refused (.startOverCapacity 101) ∧
    HostMove.apply (.writeMsg 2 0x61) (started 3) = .refused (.msgWriteAfterStart 2) ∧
    HostMove.apply (.writeMsg 3 0x61) (inRun tableT0 3 ⟨0x5, 0, 0, 0⟩) = .refused .msgWriteWhileBusy ∧
    HostMove.apply (.start 0) (inRun tableT0 3 ⟨0x5, 0, 0, 0⟩) = .refused .startWhileBusy ∧
    HostMove.apply (.start 101) (State.afterReset tableT0 (some 100) 0) = .refused (.startOverCapacity 101) := by
  refine ⟨?_, ?_, ?_, ?_, ?_, ?_, ?_, ?_, ?_⟩ <;> rfl

/-! ### The host's moves -/

/-- R143: resting with a start waiting, the host still writes MSG above the message and issues a start. -/
theorem test_host_while_start_waits : goesOn (hostWriteMsg 3 0x61 (started 3)) = true ∧
    goesOn (hostStart 4 (started 3)) = true := by decide
/-- R53: no index stops a store. -/
theorem test_padTerm_any_index : padByte 5000 (step (inRun tableT0 5000 ⟨0x2, 0, 0, 0⟩)) = some 0x80 := by decide

/-! ### States that meet the invariant -/

/-- A state in the middle of a run that meets the invariant: the empty message, at its first WR.LOAD. -/
theorem atFirstLoad_inv : atFirstLoad.Inv where
  msgCanonical := by decide
  padCanonical := by decide
  outCanonical := by decide
  resting := fun h => absurd rfl h
  running := fun _ => by decide
  noClash := fun _ => rfl
  runFits := fun _ => by decide
  startFits := fun _ h => by cases h
  padWritten := fun _ => by
    show ∀ a, a < 12 → (Memory.read? a atFirstLoad.pad).isSome
    decide
  padWithinCapacity := fun cap h a ha => by
    obtain rfl := Option.some.inj h
    cases hr : Memory.read? a atFirstLoad.pad with
    | none => rfl
    | some b =>
      obtain ⟨x, hx, he⟩ := List.mem_map.1 (Memory.mem_of_read hr)
      obtain rfl : x = a := congrArg Prod.fst he
      exact absurd (List.mem_range.1 hx) (Nat.not_lt.2 (Nat.le_trans (by decide) ha))
  outWritten := fun h => by
    rcases h with h | h
    · cases h
    · exact absurd h (by decide)

theorem witness_StepKeepsInvariant : atFirstLoad.Inv ∧ ∃ t, step atFirstLoad = .next t :=
  ⟨atFirstLoad_inv, exists_next_of_goesOn (by decide)⟩
theorem witness_InvariantStateSteps : atFirstLoad.Inv := atFirstLoad_inv
theorem witness_HostMoveKeepsInvariant : atFirstLoad.Inv ∧ ∃ t, HostMove.reset.apply atFirstLoad = .next t :=
  ⟨atFirstLoad_inv, _, rfl⟩
theorem witness_ReachableStateSteps : Reachable (State.afterReset tableTA (some 100) 1) := .reset _ _ _

/-- A run of the empty message (P1) comes to a reachable state whose STATUS is DONE. -/
theorem witness_DoneShowsHexString : ∃ t, Reachable t ∧ t.status = .done := by
  have hr : Reachable (started 0) := .move (.start 0) (State.afterReset tableT0 (some 100) 0) _ (.reset _ _ _) rfl
  have hs : statusOf (run 86 (started 0)) = some .done := by decide
  cases ho : run 86 (started 0) with
  | next t => exact ⟨t, reachable_run hr ho, by rw [ho] at hs; exact Option.some.inj hs⟩
  | fault f => rw [ho] at hs; cases hs
  | refused r => rw [ho] at hs; cases hs

/-- A block at rest with a start for the largest message that fits, after a run: STATUS DONE. -/
def readyAgain : State := { started 100 with status := .done, regs := regs0, n := 7, pad := [(0, 0x61)] }

theorem witness_readyFor : (started 100).readyFor 100 ∧ readyAgain.readyFor 100 := by
  refine ⟨⟨rfl, ?_, rfl, ?_⟩, ⟨rfl, ?_, rfl, ?_⟩⟩ <;> decide
theorem witness_PadderBuildsPaddedMessage : readyAgain.readyFor 100 := witness_readyFor.2
/-- The first and the last position of the run of the empty message. -/
theorem witness_RunFollowsSchedule : (started 0).readyFor 0 ∧ (runPositions 0)[0]? = some ⟨0x0, 0, 0, 0⟩ ∧
    (runPositions 0)[85]? = some ⟨0xB, 0, 0, 0⟩ := ⟨⟨rfl, by decide, rfl, by decide⟩, by decide, by decide⟩
theorem witness_RunComputesDigest : readyAgain.readyFor 100 ∧ 0 < 1 ∧ 1 < paddedLen 100 + 18 * (paddedLen 100 / 4) + 20 :=
  ⟨witness_readyFor.2, by decide, by decide⟩
theorem witness_RunsAreIndependent : (started 100).readyFor 100 ∧ readyAgain.readyFor 100 ∧
    (started 100).rcon = readyAgain.rcon ∧ ∀ a, a < 100 → (started 100).msgAt a = readyAgain.msgAt a :=
  ⟨witness_readyFor.1, witness_readyFor.2, rfl, fun _ _ => rfl⟩

end Sys2Proof.Tests
end

section
/-! PROOFS. The decoder and the encoder: decoding an encoded operation gives it back (R67, R76), and what decodes is
well formed (R70). -/

namespace Sys2Proof

@[simp] theorem cwOp_controlWordOf (op r : Nibble) : cwOp (controlWordOf op r) = op :=
  BitVec.extractLsb'_append_eq_left

@[simp] theorem cwR_controlWordOf (op r : Nibble) : cwR (controlWordOf op r) = r :=
  BitVec.extractLsb'_append_eq_right

@[simp] theorem controlWordOf_fields (cw : BitVec 8) : controlWordOf (cwOp cw) (cwR cw) = cw :=
  BitVec.extractLsb'_append_extractLsb'_eq_extractLsb' (x := cw) (start₁ := 0) (len₁ := 4) rfl |>.trans
    (BitVec.extractLsb'_eq_self)

/-- A well-formed operation is what its control word decodes to (R76). -/
theorem decode_encode {i : Instr} (hw : i.wellFormed = true) : decode (encode i) = .ok i := by
  cases i with
  | padLen k =>
    have hk : k.toNat ≤ 7 := of_decide_eq_true hw
    simp [decode, encode, hk]
  | cmpRound r => simp [decode, encode]
  | finRound r => simp [decode, encode]
  | _ => rfl

theorem eq_of_decodePlain {i k : Instr} {cw : BitVec 8} (h : decodePlain i cw = .ok k) : k = i := by
  unfold decodePlain at h
  split at h
  · cases h; rfl
  · cases h

/-- R70: an operation that a control word names has one of its legal operands. -/
theorem wellFormed_of_decode {cw : BitVec 8} {i : Instr} (h : decode cw = .ok i) : i.wellFormed = true := by
  unfold decode at h
  split at h
  case h_5 =>
    split at h
    · cases h; exact decide_eq_true ‹_›
    · cases h
  case h_8 => cases h; rfl
  case h_10 => cases h; rfl
  case h_13 => cases h
  all_goals obtain rfl := eq_of_decodePlain h; rfl

end Sys2Proof
end

section
/-! PROOFS. The rotation and the shifts as Lean's own operations on bit vectors (R12). -/

namespace Sys2Proof.Machine

theorem rotl_eq_rotateLeft (x : Word) {s : Nat} (h : s < 32) : rotl x s = x.rotateLeft s := by
  rw [BitVec.rotateLeft_def, Nat.mod_eq_of_lt h]
  rfl

theorem getLsbD_rotl (x : Word) {s i : Nat} (hs : s < 32) (hi : i < 32) :
    (rotl x s).getLsbD ((i + s) % 32) = x.getLsbD i := by
  rw [rotl_eq_rotateLeft x hs, BitVec.getLsbD_rotateLeft, Nat.mod_eq_of_lt hs]
  rcases Nat.lt_or_ge (i + s) 32 with h | h
  · simp [Nat.mod_eq_of_lt h, h]
  · have hm : (i + s) % 32 = i + s - 32 := by omega
    have hlt : i + s - 32 < s := by omega
    have hi' : 32 - s + (i + s - 32) = i := by omega
    simp [hm, hlt, hi']

theorem rotl_zero (x : Word) : rotl x 0 = x := by
  simp [rotl, shl, shr, BitVec.ushiftRight_eq_zero (x := x) (n := 32) (Nat.le_refl 32)]

theorem toNat_shl (x : Word) (s : Nat) : (shl x s).toNat = x.toNat * 2 ^ s % 2 ^ 32 := by
  rw [shl, BitVec.toNat_shiftLeft, Nat.shiftLeft_eq]

theorem toNat_shr (x : Word) (s : Nat) : (shr x s).toNat = x.toNat / 2 ^ s := by
  rw [shr, BitVec.toNat_ushiftRight, Nat.shiftRight_eq_div_pow]

/-- Settles O13: bit by bit through `BitVec.rotateLeft`, and the shifts by their values. -/
theorem shiftsAndRotation : Obligations.ShiftsAndRotation := by
  refine ⟨fun x s i hs hi => ?_, rotl_zero, fun x s _ _ => ⟨rfl, toNat_shl x s, toNat_shr x s⟩⟩
  exact getLsbD_rotl x (Nat.lt_succ_of_le hs) hi

end Sys2Proof.Machine
end

section
/-! PROOFS. The successor table as a relation between operations (R146): the schedule is kept, and how far the padded
buffer has come at each position (R89). -/

namespace Sys2Proof.Machine

theorem onSchedule_of_decode {p : Position} {i : Instr} (hd : decode p.controlWord = .ok i) (n : Nat) :
    onSchedule p n = countersInRange i p n := by
  simp [onSchedule, hd]

theorem padProgress_of_decode {p : Position} {i : Instr} (hd : decode p.controlWord = .ok i) (n : Nat) :
    padProgress p n = padBytesBefore i p n := by
  simp [padProgress, hd]

@[simp] theorem controlWord_positionOf (i : Instr) (j c : Nat) : (positionOf i j c).controlWord = encode i :=
  controlWordOf_fields (encode i)

@[simp] theorem positionOf_j (i : Instr) (j c : Nat) : (positionOf i j c).j = j := rfl

@[simp] theorem positionOf_i (i : Instr) (j c : Nat) : (positionOf i j c).i = c := rfl

theorem decode_positionOf {i : Instr} (hw : i.wellFormed = true) (j c : Nat) :
    decode (positionOf i j c).controlWord = .ok i := by
  rw [controlWord_positionOf, decode_encode hw]

/-- The rows of R146: at position `p` of a run for length `n`, which operation with which J and I follows which. A row for
a counter at its bound also holds beyond it (log 11). -/
inductive Follows (p : Position) (n : Nat) : Instr → Instr → Nat → Nat → Prop where
  | startCopy : 0 < n → Follows p n .seqStart .padCopy 0 0
  | startTerm : ¬ 0 < n → Follows p n .seqStart .padTerm 0 0
  | copyNext : p.j + 1 < n → Follows p n .padCopy .padCopy (p.j + 1) 0
  | copyTerm : ¬ p.j + 1 < n → Follows p n .padCopy .padTerm 0 0
  | termZero : 0 < zeroFill n → Follows p n .padTerm .padZero 0 0
  | termLen : ¬ 0 < zeroFill n → Follows p n .padTerm (.padLen 0) 0 0
  | zeroNext : p.j + 1 < zeroFill n → Follows p n .padZero .padZero (p.j + 1) 0
  | zeroLen : ¬ p.j + 1 < zeroFill n → Follows p n .padZero (.padLen 0) 0 0
  | lenNext (k : Nibble) : k.toNat < 7 → Follows p n (.padLen k) (.padLen (k + 1)) 0 0
  | lenInit (k : Nibble) : ¬ k.toNat < 7 → Follows p n (.padLen k) .cmpInit 0 0
  | initLoad : Follows p n .cmpInit .wrLoad 0 0
  | loadRound : Follows p n .wrLoad (.cmpRound 0) 0 p.i
  | roundNext (r : Nibble) : r.toNat < 15 → Follows p n (.cmpRound r) (.cmpRound (r + 1)) 0 p.i
  | roundFfwd (r : Nibble) : ¬ r.toNat < 15 → Follows p n (.cmpRound r) .cmpFfwd 0 p.i
  | ffwdLoad : p.i + 1 < wordCount n → Follows p n .cmpFfwd .wrLoad 0 (p.i + 1)
  | ffwdFin : ¬ p.i + 1 < wordCount n → Follows p n .cmpFfwd (.finRound 0) 0 0
  | finNext (r : Nibble) : r.toNat < 15 → Follows p n (.finRound r) (.finRound (r + 1)) 0 0
  | finHex (r : Nibble) : ¬ r.toNat < 15 → Follows p n (.finRound r) .hexEmit 0 0
  | hexDone : Follows p n .hexEmit .seqDone 0 0
  | doneStart : Follows p n .seqDone .seqStart 0 0

/-- A successor chosen by a guard comes from the row of the guard's outcome. -/
theorem follows_ite {g : Prop} [Decidable g] {p : Position} {n : Nat} {i i₁ i₂ : Instr} {j₁ c₁ j₂ c₂ : Nat}
    (h₁ : g → Follows p n i i₁ j₁ c₁) (h₂ : ¬ g → Follows p n i i₂ j₂ c₂) :
    ∃ i' j c, (if g then positionOf i₁ j₁ c₁ else positionOf i₂ j₂ c₂) = positionOf i' j c ∧ Follows p n i i' j c := by
  split
  · exact ⟨_, _, _, rfl, h₁ ‹_›⟩
  · exact ⟨_, _, _, rfl, h₂ ‹_›⟩

/-- The successor function answers by a row of the table. -/
theorem successor_follows (i : Instr) (p : Position) (n : Nat) :
    ∃ i' j c, successor i p n = positionOf i' j c ∧ Follows p n i i' j c := by
  cases i with
  | seqStart => exact follows_ite .startCopy .startTerm
  | padCopy => exact follows_ite .copyNext .copyTerm
  | padTerm => exact follows_ite .termZero .termLen
  | padZero => exact follows_ite .zeroNext .zeroLen
  | padLen k => exact follows_ite (.lenNext k) (.lenInit k)
  | cmpInit => exact ⟨_, _, _, rfl, .initLoad⟩
  | wrLoad => exact ⟨_, _, _, rfl, .loadRound⟩
  | cmpRound r => exact follows_ite (.roundNext r) (.roundFfwd r)
  | cmpFfwd => exact follows_ite .ffwdLoad .ffwdFin
  | finRound r => exact follows_ite (.finNext r) (.finHex r)
  | hexEmit => exact ⟨_, _, _, rfl, .hexDone⟩
  | seqDone => exact ⟨_, _, _, rfl, .doneStart⟩

theorem toNat_succ_of_lt_seven {k : Nibble} (hk : k.toNat < 7) : (k + 1).toNat = k.toNat + 1 := by
  bv_omega

/-- The table names well-formed operations only (R70). -/
theorem Follows.wellFormed {p : Position} {n j c : Nat} {i i' : Instr} (h : Follows p n i i' j c) :
    i'.wellFormed = true := by
  cases h with
  | lenNext k hk =>
    refine decide_eq_true ?_
    rw [toNat_succ_of_lt_seven hk]
    exact hk
  | _ => rfl

theorem wordCount_pos (n : Nat) : 0 < wordCount n := Nat.succ_pos _

/-- The successor of a position of the schedule is one again, but for SEQ.DONE, which rests; an accepted start's is one too
(R146). -/
theorem onSchedule_successor {i : Instr} {p : Position} {n : Nat} (h : i = .seqStart ∨ countersInRange i p n = true)
    (hi : i ≠ .seqDone) : onSchedule (successor i p n) n = true := by
  obtain ⟨i', j, c, he, hf⟩ := successor_follows i p n
  rw [he, onSchedule_of_decode (decode_positionOf hf.wellFormed j c)]
  cases hf <;> simp_all [countersInRange, wordCount_pos]

/-- Only HEX.EMIT is followed by SEQ.DONE (R146). -/
theorem eq_hexEmit_of_successor_seqDone {i : Instr} {p : Position} {n : Nat}
    (h : decode (successor i p n).controlWord = .ok .seqDone) : i = .hexEmit := by
  obtain ⟨i', j, c, he, hf⟩ := successor_follows i p n
  rw [he, decode_positionOf hf.wellFormed j c] at h
  cases h
  cases hf
  rfl

/-- On the schedule no more bytes of PAD are written than the padded message has (R89). -/
theorem padProgress_le_paddedLen {p : Position} {n : Nat} (h : onSchedule p n = true) :
    padProgress p n ≤ paddedLen n := by
  cases hd : decode p.controlWord with
  | error e => simp [onSchedule, hd] at h
  | ok i =>
    rw [onSchedule_of_decode hd] at h
    rw [padProgress_of_decode hd]
    cases i with
    | seqStart => cases h
    | padCopy | padZero =>
      have hj := (of_decide_eq_true h).1
      simp only [padBytesBefore, paddedLen, zeroFill] at hj ⊢
      omega
    | padTerm => simp only [padBytesBefore, paddedLen]; omega
    | padLen k =>
      have hk : k.toNat ≤ 7 := of_decide_eq_true (wellFormed_of_decode hd)
      simp only [padBytesBefore, paddedLen, lenFieldAt]
      omega
    | _ => exact Nat.le_refl _

/-- After an accepted start no byte of PAD is written yet. -/
theorem padProgress_successor_seqStart (p : Position) (n : Nat) : padProgress (successor .seqStart p n) n = 0 := by
  obtain ⟨i', j, c, he, hf⟩ := successor_follows .seqStart p n
  rw [he, padProgress_of_decode (decode_positionOf hf.wellFormed j c)]
  cases hf <;> simp_all [padBytesBefore]

/-- A Padder operation stores right above the bytes written before it (R89). -/
theorem PadStore.addr_eq {s : State} {i : Instr} {a : Nat} {b : Byte} (hs : PadStore s i a b) :
    a = padBytesBefore i s.pc s.n := by
  cases hs <;> rfl

/-- A Padder operation of a run brings PAD one byte further (R89). -/
theorem PadStore.padProgress_successor {s : State} {i : Instr} {a : Nat} {b : Byte} (hs : PadStore s i a b)
    (h : countersInRange i s.pc s.n = true) : padProgress (successor i s.pc s.n) s.n = a + 1 := by
  obtain ⟨i', j, c, he, hf⟩ := successor_follows i s.pc s.n
  rw [he, padProgress_of_decode (decode_positionOf hf.wellFormed j c)]
  cases hs with
  | copy | term | zero =>
    have hj := (of_decide_eq_true h).1
    cases hf <;> simp [padBytesBefore, lenFieldAt, zeroFill] at * <;> omega
  | len k hk =>
    cases hf with
    | lenNext _ hlt => simp only [padBytesBefore, toNat_succ_of_lt_seven hlt]; omega
    | lenInit _ hge => simp only [padBytesBefore, lenFieldAt, paddedLen]; omega

end Sys2Proof.Machine
end

section
/-! PROOFS. What address spaces hold after the writes of a run: PAD filled up to an index, OUT complete (R89, R133). -/

namespace Sys2Proof.Machine

variable {α : Type}

theorem Memory.filledBelow.mono {m : Memory α} {j k : Nat} (h : Memory.filledBelow m k) (hjk : j ≤ k) :
    Memory.filledBelow m j :=
  fun a ha => h a (Nat.lt_of_lt_of_le ha hjk)

/-- A write right above the filled cells fills one more. -/
theorem Memory.filledBelow.write {m : Memory α} {k : Nat} (h : Memory.filledBelow m k) (v : α) :
    Memory.filledBelow (Memory.write k v m) (k + 1) := by
  intro a ha
  rcases Nat.lt_succ_iff_lt_or_eq.1 ha with hlt | rfl
  · rw [Memory.read_write_other (Nat.ne_of_lt hlt)]
    exact h a hlt
  · simp

theorem isHexDigit_digit : ∀ v : Nibble, isHexDigit (digit v) = true := by decide

theorem isHexDigit_of_mem_hex8 {x : Word} {c : Char} (h : c ∈ hex8 x) : isHexDigit c = true := by
  have hd : ∃ v : Nibble, c = digit v := by
    simp only [hex8, List.mem_cons, List.not_mem_nil, or_false] at h
    rcases h with h | h | h | h | h | h | h | h <;> exact ⟨_, h⟩
  obtain ⟨v, rfl⟩ := hd
  exact isHexDigit_digit v

/-- R133: the digest string is spelled in the lowercase alphabet. -/
theorem isHexDigit_of_mem_hexEncode {r : Regs} {c : Char} (h : c ∈ hexEncode r) : isHexDigit c = true := by
  simp only [hexEncode, List.mem_append] at h
  rcases h with ((h | h) | h) | h <;> exact isHexDigit_of_mem_hex8 h

/-- HEX.EMIT completes OUT (R131, R133). -/
theorem outComplete_writeList_hexEncode (r : Regs) (m : Memory Char) :
    outComplete (Memory.writeList 0 (hexEncode r) m) := by
  intro p hp
  have hlen : p < (hexEncode r).length := hp
  refine ⟨(hexEncode r)[p], ?_, isHexDigit_of_mem_hexEncode (List.getElem_mem hlen)⟩
  simpa using Memory.read_writeList_inside (a := 0) (m := m) hlen

end Sys2Proof.Machine
end

section
/-! PROOFS. O48: the invariant is kept by every step. One lemma per effect an operation can have (`Effect`). -/

namespace Sys2Proof.Machine

variable {s : State} {i : Instr}

/-- At rest SEQ.START is next, so any other operation is one of a run (R144). -/
theorem State.Inv.busy_of_decode (h : s.Inv) (hd : decode s.pc.controlWord = .ok i) (hi : i ≠ .seqStart) :
    s.status = .busy := by
  by_contra hb
  rw [h.resting hb] at hd
  cases hd
  exact hi rfl

/-- R141: accepting a start that fits keeps the invariant. -/
theorem State.Inv.accept (h : s.Inv) {nHost : Nat} (hfits : fits s.msgCap nHost = true) :
    State.Inv { s with n := nHost, status := .busy, start := none, pc := successor .seqStart s.pc nHost } :=
  { h with
    resting := fun hb => absurd rfl hb
    running := fun _ => onSchedule_successor (.inl rfl) nofun
    noClash := fun _ => rfl
    runFits := fun _ => hfits
    startFits := nofun
    padWritten := fun _ => by
      rw [padProgress_successor_seqStart]
      exact nofun
    outWritten := fun hout => by
      rcases hout with hdone | hnext
      · cases hdone
      · cases eq_hexEmit_of_successor_seqDone hnext }

/-- R142: SEQ.DONE keeps the invariant. -/
theorem State.Inv.finish (h : s.Inv) (hd : decode s.pc.controlWord = .ok .seqDone) :
    State.Inv { s with status := .done, pc := successor .seqDone s.pc s.n } :=
  { h with
    resting := fun _ => rfl
    running := nofun
    noClash := nofun
    runFits := nofun
    padWritten := nofun
    outWritten := fun _ => h.outWritten (.inr hd) }

section Run
/-! The operations of a run that is not at its end: `i` is next, and the run is in progress. -/

variable (h : s.Inv) (hb : s.status = .busy) (hd : decode s.pc.controlWord = .ok i)
include h hb hd

theorem State.Inv.countersInRange_of_decode : countersInRange i s.pc s.n = true := by
  rw [← onSchedule_of_decode hd]
  exact h.running hb

theorem State.Inv.filledBelow_of_decode : Memory.filledBelow s.pad (padBytesBefore i s.pc s.n) := by
  rw [← padProgress_of_decode hd]
  exact h.padWritten hb

theorem State.Inv.onSchedule_successor (hi : i ≠ .seqDone) : onSchedule (successor i s.pc s.n) s.n = true :=
  Machine.onSchedule_successor (.inr (h.countersInRange_of_decode hb hd)) hi

/-- Past the Padder the whole padded message is written, and stays written at the next operation (R89). -/
theorem State.Inv.filledBelow_successor (hi : i ≠ .seqDone) (hpad : padBytesBefore i s.pc s.n = paddedLen s.n) :
    Memory.filledBelow s.pad (padProgress (successor i s.pc s.n) s.n) := by
  have hfill := h.filledBelow_of_decode hb hd
  rw [hpad] at hfill
  exact hfill.mono (padProgress_le_paddedLen (h.onSchedule_successor hb hd hi))

/-- R85 to R88: storing the next byte of PAD keeps the invariant. -/
theorem State.Inv.store {a : Nat} {b : Byte} (hs : PadStore s i a b) :
    State.Inv { s with pad := Memory.write a b s.pad, pc := successor i s.pc s.n } := by
  have hc := h.countersInRange_of_decode hb hd
  have hfill := h.filledBelow_of_decode hb hd
  rw [← hs.addr_eq] at hfill
  exact { h with
    padCanonical := Memory.wf_write h.padCanonical
    resting := fun hn => absurd hb hn
    running := fun _ => h.onSchedule_successor hb hd (by rintro rfl; cases hs)
    padWritten := fun _ => by
      rw [hs.padProgress_successor hc]
      exact hfill.write b
    padWithinCapacity := fun cap hcap x hx => by
      have hlen : paddedLen s.n ≤ paddedLen cap := paddedLen_le_of_fits (hcap ▸ h.runFits hb)
      have hne : x ≠ a := by have := hs.lt_paddedLen hc; omega
      rw [Memory.read_write_other hne]
      exact h.padWithinCapacity cap hcap x hx
    outWritten := fun hout => by
      rcases hout with hdone | hnext
      · cases hb.symm.trans hdone
      · cases eq_hexEmit_of_successor_seqDone hnext
        cases hs }

/-- An operation past the Padder that writes registers alone keeps the invariant (R91, R104, R107, R110, R121). -/
theorem State.Inv.compute (hi : i ≠ .seqDone) (hne : i ≠ .hexEmit) (hpad : padBytesBefore i s.pc s.n = paddedLen s.n)
    (u : Regs) (x : Word) : State.Inv { s with regs := u, w := x, pc := successor i s.pc s.n } :=
  { h with
    resting := fun hn => absurd hb hn
    running := fun _ => h.onSchedule_successor hb hd hi
    padWritten := fun _ => h.filledBelow_successor hb hd hi hpad
    outWritten := fun hout => by
      rcases hout with hdone | hnext
      · cases hb.symm.trans hdone
      · exact absurd (eq_hexEmit_of_successor_seqDone hnext) hne }

end Run

theorem advance_writeOut_eq (i : Instr) (text : List Char) (s : State) :
    advance i (writeOut text s) =
      { s with out := Memory.writeList 0 text s.out, pc := successor i s.pc s.n } := rfl

/-- R131: HEX.EMIT, which completes OUT, keeps the invariant. -/
theorem State.Inv.emit (h : s.Inv) (hb : s.status = .busy) (hd : decode s.pc.controlWord = .ok .hexEmit)
    {out : Memory Char} (hwf : Memory.wf out) (hout : outComplete out) :
    State.Inv { s with out := out, pc := successor .hexEmit s.pc s.n } :=
  { h with
    outCanonical := hwf
    resting := fun hn => absurd hb hn
    running := fun _ => h.onSchedule_successor hb hd nofun
    padWritten := fun _ => h.filledBelow_successor hb hd nofun rfl
    outWritten := fun _ => hout }

/-- Every effect of the operation that is next keeps the invariant. -/
theorem Effect.keeps_inv {t : State} (he : Effect i s t) (h : s.Inv) (hd : decode s.pc.controlWord = .ok i) : t.Inv := by
  cases he with
  | rests => exact h
  | accepts nHost _ _ _ hfits => exact h.accept hfits
  | stores a b hs => exact h.store (h.busy_of_decode hd (by rintro rfl; cases hs)) hd hs
  | loads x hi _ =>
    subst hi
    exact h.compute (h.busy_of_decode hd nofun) hd nofun nofun rfl s.regs x
  | mixes u hr =>
    have hb : s.status = .busy := h.busy_of_decode hd (by rintro rfl; cases hr)
    exact h.compute hb hd (by rintro rfl; cases hr) (by rintro rfl; cases hr) (by cases hr <;> rfl) u s.w
  | emits hi =>
    subst hi
    rw [advance_writeOut_eq]
    exact h.emit (h.busy_of_decode hd nofun) hd (Memory.wf_writeList h.outCanonical)
      (outComplete_writeList_hexEncode s.regs s.out)
  | ends hi =>
    subst hi
    exact h.finish hd

/-- Settles O48: a step is an operation that pc names, and each effect it can have keeps the invariant. -/
theorem stepKeepsInvariant : Obligations.StepKeepsInvariant := by
  intro s t h hst
  obtain ⟨_, i, hd, hx⟩ := step_next hst
  exact (exec_effect hx).keeps_inv h hd

end Sys2Proof.Machine
end

section
/-! PROOFS. What each effect of an operation leaves unchanged, and how the control fields follow from the control fields
(R21 to R29, R40, R41, R148). -/

namespace Sys2Proof.Machine

variable {s t : State} {i : Instr}

theorem RegsWrite.op {u : Regs} (hr : RegsWrite s i u) :
    i = .cmpInit ∨ (∃ r, i = .cmpRound r) ∨ i = .cmpFfwd ∨ ∃ r, i = .finRound r := by
  cases hr with
  | init => exact .inl rfl
  | round r => exact .inr (.inl ⟨r, rfl⟩)
  | ffwd => exact .inr (.inr (.inl rfl))
  | fin r => exact .inr (.inr (.inr ⟨r, rfl⟩))

theorem PadStore.op {a : Nat} {b : Byte} (hs : PadStore s i a b) :
    i = .padCopy ∨ i = .padTerm ∨ i = .padZero ∨ ∃ k, i = .padLen k := by
  cases hs with
  | copy => exact .inl rfl
  | term => exact .inr (.inl rfl)
  | zero => exact .inr (.inr (.inl rfl))
  | len k _ => exact .inr (.inr (.inr ⟨k, rfl⟩))

/-- R21. -/
theorem Effect.op_of_regs_ne (he : Effect i s t) (h : t.regs ≠ s.regs) :
    i = .cmpInit ∨ (∃ r, i = .cmpRound r) ∨ i = .cmpFfwd ∨ ∃ r, i = .finRound r := by
  cases he with
  | mixes u hr => exact hr.op
  | _ => simp at h

/-- R22. -/
theorem Effect.op_of_w_ne (he : Effect i s t) (h : t.w ≠ s.w) : i = .wrLoad := by
  cases he with
  | loads x hi _ => exact hi
  | _ => simp at h

/-- R24. -/
theorem Effect.op_of_n_ne (he : Effect i s t) (h : t.n ≠ s.n) : i = .seqStart := by
  cases he with
  | accepts nHost hi _ _ _ => exact hi
  | _ => simp at h

/-- R29. -/
theorem Effect.op_of_status_ne (he : Effect i s t) (h : t.status ≠ s.status) : i = .seqStart ∨ i = .seqDone := by
  cases he with
  | accepts nHost hi _ _ _ => exact .inl hi
  | ends hi => exact .inr hi
  | _ => simp at h

/-- R140: only SEQ.START takes the host's command. -/
theorem Effect.op_of_start_ne (he : Effect i s t) (h : t.start ≠ s.start) : i = .seqStart := by
  cases he with
  | accepts nHost hi _ _ _ => exact hi
  | _ => simp at h

/-- R42. -/
theorem Effect.op_of_pad_ne (he : Effect i s t) (h : t.pad ≠ s.pad) :
    i = .padCopy ∨ i = .padTerm ∨ i = .padZero ∨ ∃ k, i = .padLen k := by
  cases he with
  | stores a b hs => exact hs.op
  | _ => simp at h

/-- R44. -/
theorem Effect.op_of_out_ne (he : Effect i s t) (h : t.out ≠ s.out) : i = .hexEmit := by
  cases he with
  | emits hi => exact hi
  | _ => simp at h

/-- R9, R26, R41, log 4: no operation writes MSG, the table, MSG_CAP or the model's msgEpoch. -/
theorem Effect.unwrittenFields_eq (he : Effect i s t) :
    t.msg = s.msg ∧ t.rcon = s.rcon ∧ t.msgCap = s.msgCap ∧ t.msgEpoch = s.msgEpoch := by
  cases he <;> simp

/-- Settles O9: field by field, from what an operation's effect can be. -/
theorem writersOfEachField : Obligations.WritersOfEachField := by
  intro i s t h
  have he := exec_effect h
  exact ⟨he.op_of_regs_ne, he.op_of_w_ne, he.op_of_n_ne, he.op_of_status_ne, he.op_of_start_ne, he.op_of_pad_ne,
    he.op_of_out_ne, he.unwrittenFields_eq⟩

/-- pc, N, STATUS and the host's command after operation `i`, as a function of these alone (R148). -/
def controlAfter (i : Instr) (p : Position) (n : Nat) (status : Status) (start : Option Nat) :
    Position × Nat × Status × Option Nat :=
  match i with
  | .seqStart =>
    match start with
    | none => (p, n, status, none)
    | some nHost => (successor .seqStart p nHost, nHost, .busy, none)
  | .seqDone => (successor .seqDone p n, n, .done, start)
  | i => (successor i p n, n, status, start)

theorem Effect.control_eq (he : Effect i s t) :
    (t.pc, t.n, t.status, t.start) = controlAfter i s.pc s.n s.status s.start := by
  cases he with
  | rests hi hs => subst hi; simp [controlAfter, hs]
  | accepts nHost hi hs _ _ => subst hi; simp [controlAfter, hs]
  | stores a b hs => cases hs <;> rfl
  | mixes u hr => cases hr <;> rfl
  | emits hi => subst hi; simp [controlAfter]
  | loads x hi _ | ends hi => subst hi; rfl

/-- Settles O10: both states' control fields after the operation are `controlAfter` of the same values. -/
theorem controlFlowIsDataIndependent : Obligations.ControlFlowIsDataIndependent := by
  intro i s₁ s₂ t₁ t₂ hpc hn hstatus hstart h₁ h₂
  have h : (t₁.pc, t₁.n, t₁.status, t₁.start) = (t₂.pc, t₂.n, t₂.status, t₂.start) := by
    rw [(exec_effect h₁).control_eq, (exec_effect h₂).control_eq, hpc, hn, hstatus, hstart]
  simpa only [Prod.mk.injEq] using h

end Sys2Proof.Machine
end

section
/-! PROOFS. The step at a control word, and what the Word Reader reads (R27, R91, U9). -/

namespace Sys2Proof.Machine

variable {s : State} {a : Nat}

/-- Settles O6: the control word is the two fields of pc, so this is the step's own rule. -/
theorem stepRunsDecodedOperation : Obligations.StepRunsDecodedOperation :=
  fun _ _ hc hd => step_of_decode hc hd

/-- The four bytes are read one after the other, and the first that faults decides. -/
theorem readPadWord_eq_bind (a : Nat) (s : State) :
    readPadWord a s = do
      let b0 ← readPad a s
      let b1 ← readPad (a + 1) s
      let b2 ← readPad (a + 2) s
      let b3 ← readPad (a + 3) s
      return le32 b0 b1 b2 b3 := by
  unfold readPadWord
  cases readPad a s <;> cases readPad (a + 1) s <;> cases readPad (a + 2) s <;> cases readPad (a + 3) s <;> rfl

theorem exists_readPad_of_isSome (h : (Memory.read? a s.pad).isSome) : ∃ b, readPad a s = .ok b := by
  obtain ⟨b, hb⟩ := Option.isSome_iff_exists.1 h
  exact ⟨b, readPad_of_read hb⟩

/-- U9: the word's read faults at the first byte that holds no value. -/
theorem readPadWord_of_unwritten {q : Nat} (hq : q < 4) (hsome : ∀ p, p < q → (Memory.read? (a + p) s.pad).isSome)
    (hnone : Memory.read? (a + q) s.pad = none) : readPadWord a s = .error (.padUnwritten (a + q)) := by
  have hok : ∀ p, p < q → ∃ b, readPad (a + p) s = .ok b := fun p hp => exists_readPad_of_isSome (hsome p hp)
  have herr : readPad (a + q) s = .error (.padUnwritten (a + q)) := readPad_of_unwritten hnone
  rw [readPadWord_eq_bind]
  match q with
  | 0 =>
    rw [Nat.add_zero] at herr
    rw [herr]; rfl
  | 1 =>
    obtain ⟨b0, h0⟩ := hok 0 (by decide)
    rw [Nat.add_zero] at h0
    rw [h0, herr]; rfl
  | 2 =>
    obtain ⟨b0, h0⟩ := hok 0 (by decide)
    obtain ⟨b1, h1⟩ := hok 1 (by decide)
    rw [Nat.add_zero] at h0
    rw [h0, h1, herr]; rfl
  | 3 =>
    obtain ⟨b0, h0⟩ := hok 0 (by decide)
    obtain ⟨b1, h1⟩ := hok 1 (by decide)
    obtain ⟨b2, h2⟩ := hok 2 (by decide)
    rw [Nat.add_zero] at h0
    rw [h0, h1, h2, herr]; rfl

theorem exists_readPadWord_of_filledBelow {k : Nat} (h : Memory.filledBelow s.pad k) (ha : a + 3 < k) :
    ∃ x, readPadWord a s = .ok x := by
  obtain ⟨b0, h0⟩ := Option.isSome_iff_exists.1 (h a (by omega))
  obtain ⟨b1, h1⟩ := Option.isSome_iff_exists.1 (h (a + 1) (by omega))
  obtain ⟨b2, h2⟩ := Option.isSome_iff_exists.1 (h (a + 2) (by omega))
  obtain ⟨b3, h3⟩ := Option.isSome_iff_exists.1 (h (a + 3) ha)
  exact ⟨_, readPadWord_of_read h0 h1 h2 h3⟩

theorem exec_wrLoad_of_ok {x : Word} (h : readPadWord (4 * s.pc.i) s = .ok x) :
    exec .wrLoad s = .next (advance .wrLoad (setW x s)) := by
  simp only [exec, execWrLoad, h]

theorem exec_wrLoad_of_error {f : Fault} (h : readPadWord (4 * s.pc.i) s = .error f) :
    exec .wrLoad s = .fault f := by
  simp only [exec, execWrLoad, h]

/-- Settles O27: WR.LOAD faults where the read of its word does. -/
theorem wrLoadOfUnwrittenByteFaults : Obligations.WrLoadOfUnwrittenByteFaults :=
  fun _ _ hq hsome hnone => exec_wrLoad_of_error (readPadWord_of_unwritten hq hsome hnone)

end Sys2Proof.Machine
end

section
/-! PROOFS. The invariant after reset (R34), and that a state of the invariant goes on (R163). -/

namespace Sys2Proof.Machine

variable {s : State} {i : Instr}

theorem decode_restPosition : decode restPosition.controlWord = .ok .seqStart := rfl

/-- R34, R182: after a first reset the block rests, and no address space holds anything. -/
theorem afterReset_inv (table : Vector Word 16) (cap : Option Nat) (epoch : Nat) :
    (State.afterReset table cap epoch).Inv where
  msgCanonical := .nil
  padCanonical := .nil
  outCanonical := .nil
  resting := fun _ => rfl
  running := nofun
  noClash := nofun
  runFits := nofun
  startFits := nofun
  padWritten := nofun
  padWithinCapacity := fun _ _ _ _ => rfl
  outWritten := fun hout => by
    rcases hout with hdone | hnext
    · cases hdone
    · cases decode_restPosition.symm.trans hnext

/-- Settles O47: State.reset is a state after a first reset like any other. -/
theorem resetEstablishesInvariant : Obligations.ResetEstablishesInvariant :=
  ⟨afterReset_inv Config.rcon none 0, afterReset_inv⟩

theorem State.Inv.startClash_eq_false (h : s.Inv) : s.startClash = false := by
  by_cases hb : s.status = .busy
  · simp [State.startClash, h.noClash hb]
  · simp [State.startClash, hb]

theorem exists_decode_of_onSchedule {p : Position} {n : Nat} (h : onSchedule p n = true) :
    ∃ i, decode p.controlWord = .ok i := by
  cases hd : decode p.controlWord with
  | ok i => exact ⟨i, rfl⟩
  | error e => simp [onSchedule, hd] at h

theorem State.Inv.exists_decode (h : s.Inv) : ∃ i, decode s.pc.controlWord = .ok i := by
  by_cases hb : s.status = .busy
  · exact exists_decode_of_onSchedule (h.running hb)
  · rw [h.resting hb]
    exact ⟨.seqStart, decode_restPosition⟩

/-- R144: SEQ.START is no position of a run. -/
theorem State.Inv.not_busy_of_decode_seqStart (h : s.Inv) (hd : decode s.pc.controlWord = .ok .seqStart) :
    s.status ≠ .busy :=
  fun hb => nomatch h.countersInRange_of_decode hb hd

theorem acceptStart_of_fits {nHost : Nat} (hb : s.status ≠ .busy) (hfits : fits s.msgCap nHost = true) :
    acceptStart nHost s = .next (advance .seqStart (setStatus .busy (setN nHost (takeStart s)))) := by
  rw [acceptStart, if_neg hb, if_pos hfits]

/-- R141: SEQ.START rests without a command, and accepts one that fits. -/
theorem State.Inv.exec_seqStart_next (h : s.Inv) (hb : s.status ≠ .busy) : ∃ t, exec .seqStart s = .next t := by
  simp only [exec, execSeqStart]
  cases hs : s.start with
  | none => exact ⟨s, rfl⟩
  | some nHost => exact ⟨_, acceptStart_of_fits hb (h.startFits nHost hs)⟩

/-- R35, R89: when WR.LOAD is next, the Padder has written the bytes it reads. -/
theorem State.Inv.exec_wrLoad_next (h : s.Inv) (hd : decode s.pc.controlWord = .ok .wrLoad) :
    ∃ t, exec .wrLoad s = .next t := by
  have hb : s.status = .busy := h.busy_of_decode hd nofun
  have hi : s.pc.i < wordCount s.n := (of_decide_eq_true (h.countersInRange_of_decode hb hd)).2
  have hlast : 4 * s.pc.i + 3 < paddedLen s.n := by
    unfold wordCount at hi
    unfold paddedLen
    omega
  obtain ⟨x, hx⟩ := exists_readPadWord_of_filledBelow (h.filledBelow_of_decode hb hd) hlast
  exact ⟨_, exec_wrLoad_of_ok hx⟩

/-- The operation that is next goes on: only SEQ.START, PAD.LEN and WR.LOAD can stop. -/
theorem State.Inv.exec_next (h : s.Inv) (hd : decode s.pc.controlWord = .ok i) : ∃ t, exec i s = .next t := by
  cases i with
  | seqStart => exact h.exec_seqStart_next (h.not_busy_of_decode_seqStart hd)
  | padLen k =>
    have hk : k.toNat ≤ 7 := of_decide_eq_true (wellFormed_of_decode hd)
    exact ⟨_, if_pos hk⟩
  | wrLoad => exact h.exec_wrLoad_next hd
  | _ => exact ⟨_, rfl⟩

/-- Settles O50: no start clashes, pc names an operation, and that operation goes on. -/
theorem invariantStateSteps : Obligations.InvariantStateSteps := by
  intro s h
  obtain ⟨i, hd⟩ := h.exists_decode
  rw [step_of_decode h.startClash_eq_false hd]
  exact h.exec_next hd

end Sys2Proof.Machine
end

section
/-! PROOFS. Words and address spaces: the value and the byte fields of `le32` (R45), and what determines a canonical
address space (R40, R54). -/

namespace Sys2Proof.Machine

theorem toNat_append_eq_add {k l : Nat} (x : BitVec k) (y : BitVec l) :
    (x ++ y).toNat = x.toNat * 2 ^ l + y.toNat := by
  rw [BitVec.toNat_append, ← Nat.shiftLeft_add_eq_or_of_lt y.isLt, Nat.shiftLeft_eq]

theorem toNat_le32 (b0 b1 b2 b3 : Byte) :
    (le32 b0 b1 b2 b3).toNat = b0.toNat + b1.toNat * 2 ^ 8 + b2.toNat * 2 ^ 16 + b3.toNat * 2 ^ 24 := by
  simp only [le32, toNat_append_eq_add]
  omega

/-- A byte field of `le32` has the byte's value. -/
theorem extractLsb'_le32 {b0 b1 b2 b3 b : Byte} {i : Nat}
    (h : (b0.toNat + b1.toNat * 2 ^ 8 + b2.toNat * 2 ^ 16 + b3.toNat * 2 ^ 24) / 2 ^ i % 2 ^ 8 = b.toNat) :
    (le32 b0 b1 b2 b3).extractLsb' i 8 = b := by
  rw [← BitVec.toNat_inj, BitVec.extractLsb'_toNat, toNat_le32, Nat.shiftRight_eq_div_pow, h]

/-- Settles O14: the fields follow from the value. -/
theorem wordIsLittleEndian : Obligations.WordIsLittleEndian := by
  refine ⟨fun b0 b1 b2 b3 => ⟨toNat_le32 b0 b1 b2 b3, ?_, ?_, ?_, ?_⟩, rfl⟩ <;>
    exact extractLsb'_le32 (by omega)

/-- Settles O15: the laws of a write, which hold for cells of any type. -/
theorem readAfterWrite : Obligations.ReadAfterWrite :=
  fun m a _ v =>
    ⟨Memory.read_write_same a v m, fun hne => Memory.read_write_other hne.symm v m, Memory.wf_write⟩

variable {α : Type}

/-- In canonical form every listed cell is the first with its index, the one a read finds. -/
theorem Memory.mem_iff_read_of_wf {m : Memory α} (h : Memory.wf m) {a : Nat} {v : α} :
    (a, v) ∈ m ↔ Memory.read? a m = some v := by
  refine ⟨fun hmem => ?_, Memory.mem_of_read⟩
  induction m with
  | nil => cases hmem
  | cons x m ih =>
    obtain ⟨hlt, hm⟩ := List.pairwise_cons.1 h
    rcases List.mem_cons.1 hmem with rfl | htail
    · simp [Memory.read_cons]
    · rw [Memory.read_cons, if_neg (Nat.ne_of_gt (hlt (a, v) htail))]
      exact ih hm htail

/-- Two canonical address spaces that read alike list the same cells, in the same order. -/
theorem Memory.eq_of_read_eq {m₁ m₂ : Memory α} (h₁ : Memory.wf m₁) (h₂ : Memory.wf m₂)
    (hread : ∀ a, Memory.read? a m₁ = Memory.read? a m₂) : m₁ = m₂ := by
  have : Std.Irrefl fun x y : Nat × α => x.1 < y.1 := ⟨fun x => Nat.lt_irrefl x.1⟩
  have : Std.Antisymm fun x y : Nat × α => x.1 < y.1 := ⟨fun _ _ hxy hyx => absurd hyx (Nat.lt_asymm hxy)⟩
  refine List.Pairwise.eq_of_mem_iff h₁ h₂ fun x => ?_
  rw [Memory.mem_iff_read_of_wf h₁, Memory.mem_iff_read_of_wf h₂, hread]

/-- Settles O16: the law for cells of any type, at bytes. -/
theorem equalContentsAreEqualMemories : Obligations.EqualContentsAreEqualMemories :=
  fun _ _ h₁ h₂ hread => Memory.eq_of_read_eq h₁ h₂ hread

end Sys2Proof.Machine
end

section
/-! PROOFS. The invariant under the host's moves (R143, R180), so of every reachable state, and what the host then reads
in OUT (R44, R133). -/

namespace Sys2Proof.Machine

variable {s t : State}

/-- The one shape in which the host's write to MSG goes on. -/
theorem hostWriteMsg_next {a : Nat} {b : Byte} (h : hostWriteMsg a b s = .next t) :
    s.status ≠ .busy ∧ ¬ a < s.start.getD 0 ∧ t = { s with msg := Memory.write a b s.msg } := by
  unfold hostWriteMsg at h
  split at h
  · cases h
  · split at h
    · cases h
    · cases h; exact ⟨‹_›, ‹_›, rfl⟩

/-- The one shape in which the host's start goes on. -/
theorem hostStart_next {nHost : Nat} (h : hostStart nHost s = .next t) :
    s.status ≠ .busy ∧ fits s.msgCap nHost = true ∧ t = { s with start := some nHost } := by
  unfold hostStart at h
  split at h
  · cases h
  · split at h
    · cases h; exact ⟨‹_›, ‹_›, rfl⟩
    · cases h

theorem State.Inv.writeMsg (h : s.Inv) (a : Nat) (b : Byte) :
    State.Inv { s with msg := Memory.write a b s.msg } :=
  { h with msgCanonical := Memory.wf_write h.msgCanonical }

/-- R140: at rest, a start that fits keeps the invariant. -/
theorem State.Inv.issueStart (h : s.Inv) (hb : s.status ≠ .busy) {nHost : Nat} (hfits : fits s.msgCap nHost = true) :
    State.Inv { s with start := some nHost } :=
  { h with
    noClash := fun hbusy => absurd hbusy hb
    startFits := fun _ hstart => Option.some.inj hstart ▸ hfits }

/-- R180: a reset at any time gives a state after a first reset. -/
theorem applyReset_eq_afterReset (s : State) :
    applyReset s = State.afterReset s.rcon s.msgCap (s.msgEpoch + 1) := rfl

theorem HostMove.keeps_inv {mv : HostMove} (h : s.Inv) (hmv : mv.apply s = .next t) : t.Inv := by
  cases mv with
  | writeMsg a b =>
    obtain ⟨_, _, rfl⟩ := hostWriteMsg_next hmv
    exact h.writeMsg a b
  | start nHost =>
    obtain ⟨hb, hfits, rfl⟩ := hostStart_next hmv
    exact h.issueStart hb hfits
  | reset =>
    obtain rfl := Host.Outcome.next.inj hmv
    rw [applyReset_eq_afterReset]
    exact afterReset_inv _ _ _

/-- R163: the invariant holds of every reachable state. -/
theorem Reachable.inv (h : Reachable s) : s.Inv :=
  h.holds afterReset_inv stepKeepsInvariant fun _ _ _ => HostMove.keeps_inv

/-- Where every element has an image with `P`, so has the whole list. -/
theorem exists_mapM_eq_some {α β : Type} {f : α → Option β} {P : β → Prop} {l : List α}
    (h : ∀ a ∈ l, ∃ b, f a = some b ∧ P b) :
    ∃ bs, l.mapM f = some bs ∧ bs.length = l.length ∧ ∀ b ∈ bs, P b := by
  induction l with
  | nil => exact ⟨[], rfl, rfl, nofun⟩
  | cons a l ih =>
    obtain ⟨⟨b, hb, hPb⟩, htail⟩ := List.forall_mem_cons.1 h
    obtain ⟨bs, hbs, hlen, hP⟩ := ih htail
    refine ⟨b :: bs, ?_, by simp [hlen], List.forall_mem_cons.2 ⟨hPb, hP⟩⟩
    simp [List.mapM_cons, hb, hbs]

theorem hostReadOut_of_done (hdone : s.status = .done) (p : Nat) : hostReadOut p s = Memory.read? p s.out :=
  if_pos hdone

theorem mem_lowerHexDigits_of_isHexDigit {c : Char} (h : isHexDigit c = true) : c ∈ lowerHexDigits :=
  List.contains_iff_mem.1 h

/-- While STATUS is DONE the host reads the whole of a complete OUT (R44, R140). -/
theorem exists_hostReadDigest_of_outComplete (hdone : s.status = .done) (hout : outComplete s.out) :
    ∃ text, hostReadDigest s = some text ∧ text.length = 32 ∧ ∀ c ∈ text, c ∈ lowerHexDigits := by
  refine exists_mapM_eq_some (l := List.range 32) fun p hp => ?_
  obtain ⟨c, hread, hhex⟩ := hout p (List.mem_range.1 hp)
  exact ⟨c, (hostReadOut_of_done hdone p).trans hread, mem_lowerHexDigits_of_isHexDigit hhex⟩

/-- Settles O52: by the invariant OUT is complete in every reachable DONE state. -/
theorem doneShowsHexString : Obligations.DoneShowsHexString :=
  fun _ hr hdone => exists_hostReadDigest_of_outComplete hdone (hr.inv.outWritten (.inl hdone))

end Sys2Proof.Machine
end

section
/-! PROOFS. The decoding rule by OP (R76), and the round trip of decoding and encoding (R67, R72). -/

namespace Sys2Proof

variable {cw : BitVec 8} {i : Instr}

/-- Every OP is one without operand, PAD.LEN's, one of the two round operations', or reserved (R76). -/
theorem op_cases (op : Nibble) :
    op ∈ plainOps.map Prod.fst ∨ op = 0x4 ∨ op = 0x7 ∨ op = 0x9 ∨ 0xC ≤ op.toNat := by
  revert op
  decide

theorem decode_of_op_plain {row : Nibble × Instr} (hrow : row ∈ plainOps) (hop : cwOp cw = row.1) :
    decode cw = decodePlain row.2 cw := by
  simp only [plainOps, List.mem_cons, List.not_mem_nil, or_false] at hrow
  rcases hrow with rfl | rfl | rfl | rfl | rfl | rfl | rfl | rfl | rfl <;> simp [decode, hop]

theorem decode_of_op_padLen (hop : cwOp cw = 0x4) :
    decode cw = if (cwR cw).toNat ≤ 7 then .ok (.padLen (cwR cw)) else .error (.reservedIndex cw) := by
  simp [decode, hop]

theorem decode_of_op_cmpRound (hop : cwOp cw = 0x7) : decode cw = .ok (.cmpRound (cwR cw)) := by
  simp [decode, hop]

theorem decode_of_op_finRound (hop : cwOp cw = 0x9) : decode cw = .ok (.finRound (cwR cw)) := by
  simp [decode, hop]

theorem decode_of_op_reserved (hop : 0xC ≤ (cwOp cw).toNat) : decode cw = .error (.reservedOp cw) := by
  unfold decode
  split
  case h_13 => rfl
  all_goals omega

theorem decodePlain_eq_ok_iff {k : Instr} : decodePlain i cw = .ok k ↔ cwR cw = 0 ∧ i = k := by
  unfold decodePlain
  split
  · next hr => simp [hr]
  · next hr => exact iff_of_false nofun fun h => hr h.1

theorem decodePlain_eq_error (hr : cwR cw ≠ 0) : decodePlain i cw = .error (.reservedIndex cw) :=
  if_neg hr

theorem encode_of_mem_plainOps : ∀ row ∈ plainOps, encode row.2 = controlWordOf row.1 0 := by
  decide

theorem controlWordOf_eq_of_fields {op r : Nibble} (hop : cwOp cw = op) (hr : cwR cw = r) :
    controlWordOf op r = cw := by
  rw [← hop, ← hr, controlWordOf_fields]

/-- A control word is the encoding of the operation it names (R67, R76). -/
theorem encode_of_decode (h : decode cw = .ok i) : encode i = cw := by
  rcases op_cases (cwOp cw) with hmem | hop | hop | hop | hop
  · obtain ⟨row, hrow, hop⟩ := List.mem_map.1 hmem
    rw [decode_of_op_plain hrow hop.symm] at h
    obtain ⟨hr, rfl⟩ := decodePlain_eq_ok_iff.1 h
    rw [encode_of_mem_plainOps row hrow]
    exact controlWordOf_eq_of_fields hop.symm hr
  · rw [decode_of_op_padLen hop] at h
    split at h
    · cases h; exact controlWordOf_eq_of_fields hop rfl
    · cases h
  · rw [decode_of_op_cmpRound hop] at h
    cases h; exact controlWordOf_eq_of_fields hop rfl
  · rw [decode_of_op_finRound hop] at h
    cases h; exact controlWordOf_eq_of_fields hop rfl
  · rw [decode_of_op_reserved hop] at h
    cases h

theorem decodeBytes_cons_of_decode (h : decode cw = .ok i) (rest : List Byte) :
    decodeBytes (cw :: rest) = .ok (i, rest) := by
  rw [decodeBytes, h]

/-- Settles O1: a trace's first byte is decoded like a control word. -/
theorem decodeOfEncode : Obligations.DecodeOfEncode :=
  fun _ rest hw => ⟨decode_encode hw, decodeBytes_cons_of_decode (decode_encode hw) rest⟩

/-- Settles O2: by the kinds of OP, a word that decodes has the fields its operation is encoded with. -/
theorem encodeOfDecode : Obligations.EncodeOfDecode :=
  fun _ _ h => ⟨wellFormed_of_decode h, encode_of_decode h⟩

/-- Settles O5: ten fixed words, by evaluation. -/
theorem decodedWordSamples : Obligations.DecodedWordSamples := by
  unfold Obligations.DecodedWordSamples
  decide

end Sys2Proof
end

section
/-! PROOFS. The rows of spec/opcode_table.json: selecting a row by match and mask is decoding to its operation (R76). -/

namespace Sys2Proof

theorem cwOp_and (x y : BitVec 8) : cwOp (x &&& y) = cwOp x &&& cwOp y :=
  BitVec.extractLsb'_and

theorem cwR_and (x y : BitVec 8) : cwR (x &&& y) = cwR x &&& cwR y :=
  BitVec.extractLsb'_and

theorem eq_controlWordOf_iff {cw : BitVec 8} {op r : Nibble} :
    cw = controlWordOf op r ↔ cwOp cw = op ∧ cwR cw = r := by
  refine ⟨?_, fun ⟨hop, hr⟩ => (controlWordOf_eq_of_fields hop hr).symm⟩
  rintro rfl
  simp

/-- Every row's mask holds all of OP, so a row looks at OP and at the bits of R its mask holds. -/
theorem selectsRow_iff (cw : BitVec 8) (op r rMask : Nibble) :
    cw &&& controlWordOf 0xF rMask = controlWordOf op r ↔ cwOp cw = op ∧ cwR cw &&& rMask = r := by
  have hall : cwOp cw &&& 0xF = cwOp cw := BitVec.and_allOnes
  rw [eq_controlWordOf_iff, cwOp_and, cwR_and, cwOp_controlWordOf, cwR_controlWordOf, hall]

theorem and_eight_eq_zero_iff : ∀ r : Nibble, r &&& 0x8 = 0 ↔ r.toNat ≤ 7 := by
  decide

/-- The fields of a word that names an operation are those the operation is encoded with. -/
theorem fields_eq_of_decode {cw : BitVec 8} {i : Instr} {op r : Nibble} (h : decode cw = .ok i)
    (he : encode i = controlWordOf op r) : cwOp cw = op ∧ cwR cw = r := by
  rw [← eq_controlWordOf_iff, ← he, encode_of_decode h]

theorem selectsPlainRow_iff (op : Nibble) {i : Instr} (hrow : (op, i) ∈ plainOps) (cw : BitVec 8) :
    cw &&& 0xFF = controlWordOf op 0 ↔ decode cw = .ok i := by
  have hall : cwR cw &&& 0xF = cwR cw := BitVec.and_allOnes
  rw [show (0xFF : BitVec 8) = controlWordOf 0xF 0xF from rfl, selectsRow_iff, hall]
  refine ⟨fun ⟨hop, hr⟩ => ?_, fun h => fields_eq_of_decode h (encode_of_mem_plainOps _ hrow)⟩
  rw [decode_of_op_plain hrow hop]
  exact decodePlain_eq_ok_iff.2 ⟨hr, rfl⟩

theorem selectsPadLenRow_iff (cw : BitVec 8) : cw &&& 0xF8 = 0x40 ↔ decode cw = .ok (.padLen (cwR cw)) := by
  rw [show (0xF8 : BitVec 8) = controlWordOf 0xF 0x8 from rfl, show (0x40 : BitVec 8) = controlWordOf 0x4 0 from rfl,
    selectsRow_iff, and_eight_eq_zero_iff]
  refine ⟨fun ⟨hop, hr⟩ => ?_, fun h => ⟨(fields_eq_of_decode h rfl).1, of_decide_eq_true (wellFormed_of_decode h)⟩⟩
  rw [decode_of_op_padLen hop, if_pos hr]

theorem selectsOpRow_iff (cw : BitVec 8) (op : Nibble) : cw &&& 0xF0 = controlWordOf op 0 ↔ cwOp cw = op := by
  rw [show (0xF0 : BitVec 8) = controlWordOf 0xF 0 from rfl, selectsRow_iff]
  simp

theorem selectsCmpRoundRow_iff (cw : BitVec 8) : cw &&& 0xF0 = 0x70 ↔ decode cw = .ok (.cmpRound (cwR cw)) :=
  (selectsOpRow_iff cw 0x7).trans ⟨decode_of_op_cmpRound, fun h => (fields_eq_of_decode h rfl).1⟩

theorem selectsFinRoundRow_iff (cw : BitVec 8) : cw &&& 0xF0 = 0x90 ↔ decode cw = .ok (.finRound (cwR cw)) :=
  (selectsOpRow_iff cw 0x9).trans ⟨decode_of_op_finRound, fun h => (fields_eq_of_decode h rfl).1⟩

/-- R76: the agreement of the decoding rule with match and mask, for all 12 rows. -/
theorem selectsRow_iff_decode : ∀ row ∈ opcodeRows, ∀ cw : BitVec 8,
    cw &&& row.2.1 = row.1 ↔ decode cw = .ok (row.2.2 (cwR cw)) := by
  simp only [opcodeRows, List.forall_mem_cons, List.not_mem_nil, false_implies, implies_true, and_true]
  exact ⟨selectsPlainRow_iff 0x0 (by decide), selectsPlainRow_iff 0x1 (by decide), selectsPlainRow_iff 0x2 (by decide),
    selectsPlainRow_iff 0x3 (by decide), selectsPadLenRow_iff, selectsPlainRow_iff 0x5 (by decide),
    selectsPlainRow_iff 0x6 (by decide), selectsCmpRoundRow_iff, selectsPlainRow_iff 0x8 (by decide),
    selectsFinRoundRow_iff, selectsPlainRow_iff 0xA (by decide), selectsPlainRow_iff 0xB (by decide)⟩

/-- Settles O3: by the kinds of OP, and row by row. -/
theorem decodingRule : Obligations.DecodingRule :=
  ⟨fun _ => ⟨decode_of_op_reserved, decode_of_op_cmpRound, decode_of_op_finRound, decode_of_op_padLen,
    fun _ hrow hop => decode_of_op_plain hrow hop⟩, selectsRow_iff_decode⟩

end Sys2Proof
end

section
/-! PROOFS. The reserved control words (R70): which they are, and that neither the sequencer nor the host makes one. -/

namespace Sys2Proof.Machine

variable {cw : BitVec 8} {s : State}

theorem toNat_eq_fields (cw : BitVec 8) : cw.toNat = 16 * (cwOp cw).toNat + (cwR cw).toNat := by
  have h : cw.toNat < 256 := cw.isLt
  simp only [cwOp, cwR, BitVec.extractLsb'_toNat, Nat.shiftRight_eq_div_pow]
  omega

/-- R70's list by the two fields. -/
theorem reservedWord_iff_fields :
    reservedWord cw ↔ 0xC ≤ (cwOp cw).toNat ∨ (cwOp cw = 0x4 ∧ ¬ (cwR cw).toNat ≤ 7) ∨
      (cwOp cw ∈ plainOps.map Prod.fst ∧ cwR cw ≠ 0) := by
  have hop : cwOp cw = 0x4 ↔ (cwOp cw).toNat = 4 := BitVec.toNat_inj.symm
  have hr : (cwR cw).toNat < 16 := (cwR cw).isLt
  unfold reservedWord
  rw [hop, toNat_eq_fields cw]
  exact or_congr (by omega) (or_congr (by omega) Iff.rfl)

theorem exists_decode_error_of_reservedWord (h : reservedWord cw) : ∃ e, decode cw = .error e := by
  rcases reservedWord_iff_fields.1 h with hop | ⟨hop, hr⟩ | ⟨hmem, hr⟩
  · exact ⟨_, decode_of_op_reserved hop⟩
  · exact ⟨_, (decode_of_op_padLen hop).trans (if_neg hr)⟩
  · obtain ⟨row, hrow, hop⟩ := List.mem_map.1 hmem
    exact ⟨_, (decode_of_op_plain hrow hop.symm).trans (decodePlain_eq_error hr)⟩

theorem reservedWord_of_decode_error {e : DecodeError} (h : decode cw = .error e) : reservedWord cw := by
  rw [reservedWord_iff_fields]
  rcases op_cases (cwOp cw) with hmem | hop | hop | hop | hop
  · obtain ⟨row, hrow, hop⟩ := List.mem_map.1 hmem
    refine .inr (.inr ⟨hmem, fun hr => ?_⟩)
    rw [decode_of_op_plain hrow hop.symm, decodePlain_eq_ok_iff.2 ⟨hr, rfl⟩] at h
    cases h
  · refine .inr (.inl ⟨hop, fun hr => ?_⟩)
    rw [decode_of_op_padLen hop, if_pos hr] at h
    cases h
  · cases (decode_of_op_cmpRound hop).symm.trans h
  · cases (decode_of_op_finRound hop).symm.trans h
  · exact .inl hop

theorem not_reservedWord_of_decode {i : Instr} (h : decode cw = .ok i) : ¬ reservedWord cw := by
  intro hres
  obtain ⟨e, he⟩ := exists_decode_error_of_reservedWord hres
  cases h.symm.trans he

/-- The successor table names operations only, also from a position no run reaches (R70, R146). -/
theorem not_reservedWord_successor (i : Instr) (p : Position) (n : Nat) :
    ¬ reservedWord (successor i p n).controlWord := by
  obtain ⟨i', j, c, he, hf⟩ := successor_follows i p n
  rw [he]
  exact not_reservedWord_of_decode (decode_positionOf hf.wellFormed j c)

/-- R143, R180: of the host's moves only reset writes pc. -/
theorem HostMove.pc_eq {mv : HostMove} {t : State} (h : mv.apply s = .next t) :
    t.pc = s.pc ∨ (mv = .reset ∧ t.pc = restPosition) := by
  cases mv with
  | writeMsg a b =>
    obtain ⟨_, _, rfl⟩ := hostWriteMsg_next h
    exact .inl rfl
  | start nHost =>
    obtain ⟨_, _, rfl⟩ := hostStart_next h
    exact .inl rfl
  | reset =>
    obtain rfl := Host.Outcome.next.inj h
    exact .inr ⟨rfl, rfl⟩

/-- With no start in the way, the step at a control word that names no operation is refused (R70, U5). -/
theorem step_of_decode_error {e : DecodeError} (hc : s.startClash = false)
    (hd : decode s.pc.controlWord = .error e) : step s = .refused (.reservedControlWord s.pc.controlWord) := by
  unfold step
  rw [hc, hd]
  rfl

section Reserved
/-! The step and the block at a reserved control word. -/

variable (h : reservedWord s.pc.controlWord)
include h

/-- A final state is at rest, where SEQ.START is next (R144). -/
theorem isFinal_of_reservedWord : s.isFinal = false := by
  refine decide_eq_false fun ⟨hrest, _⟩ => ?_
  rw [hrest] at h
  exact not_reservedWord_of_decode decode_restPosition h

theorem step_ne_next_of_reservedWord (t : State) : step s ≠ .next t := by
  intro hst
  obtain ⟨_, i, hd, _⟩ := step_next hst
  exact not_reservedWord_of_decode hd h

theorem step_of_reservedWord (hc : s.startClash = false) :
    step s = .refused (.reservedControlWord s.pc.controlWord) := by
  obtain ⟨e, he⟩ := exists_decode_error_of_reservedWord h
  exact step_of_decode_error hc he

end Reserved

/-- Settles O4: the list by the fields OP and R, the successors by the table's rows, the host's moves one by one. -/
theorem reservedControlWords : Obligations.ReservedControlWords :=
  ⟨fun _ => ⟨fun ⟨_, he⟩ => reservedWord_of_decode_error he, exists_decode_error_of_reservedWord⟩,
    fun i p n _ => not_reservedWord_successor i p n, fun _ _ _ => HostMove.pc_eq,
    fun _ h => ⟨isFinal_of_reservedWord h, step_ne_next_of_reservedWord h, step_of_reservedWord h⟩⟩

end Sys2Proof.Machine
end

section
/-! PROOFS. The OP codes a run goes through, in order, and how many there are of each unit (R73, R75). -/

namespace Sys2Proof.Machine

@[simp] theorem positionOf_op (i : Instr) (j c : Nat) : (positionOf i j c).op = cwOp (encode i) := rfl

theorem map_op_padPositions (n : Nat) :
    (padPositions n).map Position.op =
      List.replicate n 0x1 ++ [0x2] ++ List.replicate (zeroFill n) 0x3 ++ List.replicate 8 0x4 := by
  simp [padPositions, encode, Function.comp_def, List.map_const']

theorem map_op_absorbPositions (i : Nat) :
    (absorbPositions i).map Position.op = [0x6] ++ List.replicate 16 0x7 ++ [0x8] := by
  simp [absorbPositions, encode, Function.comp_def, List.map_const']

/-- R73's expansion of the run, by OP. -/
theorem map_op_runPositions (n : Nat) :
    (runPositions n).map Position.op =
      [0x0] ++ (List.replicate n 0x1 ++ [0x2] ++ List.replicate (zeroFill n) 0x3 ++ List.replicate 8 0x4) ++ [0x5] ++
        (List.replicate (wordCount n) ([0x6] ++ List.replicate 16 0x7 ++ [0x8])).flatten ++
        List.replicate 16 0x9 ++ [0xA, 0xB] := by
  have habsorb : ((List.range (wordCount n)).flatMap absorbPositions).map Position.op =
      (List.replicate (wordCount n) ([0x6] ++ List.replicate 16 0x7 ++ [0x8])).flatten := by
    rw [List.map_flatMap, List.flatMap_def, funext map_op_absorbPositions, List.map_const', List.length_range]
  simp only [runPositions, List.map_append, map_op_padPositions, habsorb]
  simp [encode, Function.comp_def, List.map_const']

/-- How many positions of a run have an OP of the set `q` (R75). -/
theorem countP_op_runPositions (q : Nibble → Bool) (n : Nat) :
    (runPositions n).countP (fun p => q p.op) =
      (q 0x0).toNat + ((q 0x1).toNat * n + (q 0x2).toNat + (q 0x3).toNat * zeroFill n + (q 0x4).toNat * 8) +
        (q 0x5).toNat + ((q 0x6).toNat + (q 0x7).toNat * 16 + (q 0x8).toNat) * wordCount n +
        (q 0x9).toNat * 16 + ((q 0xA).toNat + (q 0xB).toNat) := by
  have hone : ∀ o : Nibble, [o].countP q = (q o).toNat := fun o => by cases h : q o <;> simp [h]
  have hrep : ∀ (k : Nat) (o : Nibble), (List.replicate k o).countP q = (q o).toNat * k := fun k o => by
    cases h : q o <;> simp [List.countP_replicate, h]
  have hmap : (runPositions n).countP (fun p => q p.op) = ((runPositions n).map Position.op).countP q :=
    List.countP_map.symm
  have htwo : [0xA, 0xB] = [(0xA : Nibble)] ++ [0xB] := rfl
  rw [hmap, map_op_runPositions, htwo]
  simp only [List.countP_append, List.countP_flatten, List.map_replicate, List.sum_replicate, smul_eq_mul, hone, hrep]
  ring

theorem paddedLen_eq_four_mul_wordCount (n : Nat) : paddedLen n = 4 * wordCount n := by
  unfold paddedLen wordCount
  omega

/-- The bytes the Padder stores make up the padded message: the message, the terminator, the zero fill and the length
field (R83). -/
theorem paddedLen_eq_sum (n : Nat) : paddedLen n = n + 1 + zeroFill n + 8 := by
  unfold paddedLen zeroFill
  omega

/-- Settles O55: the six counts are instances of one formula. -/
theorem operationsPerUnit : Obligations.OperationsPerUnit := by
  intro n count m
  have hcount : ∀ ops, count ops = _ := fun ops => countP_op_runPositions ops.contains n
  have hm : m = n + 1 + zeroFill n + 8 := paddedLen_eq_sum n
  have hdiv : m / 4 = wordCount n := Nat.div_eq_of_eq_mul_right (by decide) (paddedLen_eq_four_mul_wordCount n)
  simp only [hcount, hdiv]
  simp [hm]

end Sys2Proof.Machine
end

section
/-! PROOFS. The quantities of the padded buffer, the length field and the padded message, as functions of the message
alone (R46, R61, R80 to R84, R89). -/

namespace Sys2Proof.Machine

variable {n k : Nat}

/-! ### The zero fill and the padded length (R82, R83) -/

theorem zeroFill_ends_word (n : Nat) : (n + 1 + zeroFill n) % 4 = 0 := by
  unfold zeroFill
  omega

theorem zeroFill_le_of_ends_word {c : Nat} (h : (n + 1 + c) % 4 = 0) : zeroFill n ≤ c := by
  unfold zeroFill
  omega

/-- R82: no zero fill exactly when the terminator is the last byte of a word. -/
theorem zeroFill_eq_zero_iff (n : Nat) : zeroFill n = 0 ↔ (n + 1) % 4 = 0 := by
  unfold zeroFill
  omega

theorem paddedLen_mod_four (n : Nat) : paddedLen n % 4 = 0 := by
  rw [paddedLen_eq_four_mul_wordCount, Nat.mul_mod_right]

theorem twelve_le_paddedLen (n : Nat) : 12 ≤ paddedLen n :=
  Nat.le_add_left 12 _

/-- The padded length depends on how many whole words the message has. -/
theorem paddedLen_of_div {q : Nat} (h : n / 4 = q) : paddedLen n = 4 * q + 12 := by
  rw [paddedLen, h]

theorem lenFieldAt_eq_paddedLen_sub (n : Nat) : lenFieldAt n = paddedLen n - 8 := rfl

/-- The length field begins right after the zero fill. -/
theorem lenFieldAt_eq_sum (n : Nat) : lenFieldAt n = n + 1 + zeroFill n := by
  rw [lenFieldAt_eq_paddedLen_sub, paddedLen_eq_sum, Nat.add_sub_cancel]

theorem wordCount_eq_paddedLen_div (n : Nat) : wordCount n = paddedLen n / 4 := by
  rw [paddedLen_eq_four_mul_wordCount, Nat.mul_div_cancel_left _ (by decide)]

/-- Settles O17: the zero fill by the remainders of `n`, the padded length by the words of the message. -/
theorem paddingQuantities : Obligations.PaddingQuantities :=
  fun n => ⟨rfl, zeroFill_ends_word n, fun _ => zeroFill_le_of_ends_word, zeroFill_eq_zero_iff n, paddedLen_eq_sum n,
    rfl, paddedLen_mod_four n, twelve_le_paddedLen n,
    fun h => paddedLen_of_div (q := 0) (by omega),
    fun hlo hhi => paddedLen_of_div (q := 1) (by omega),
    fun hlo hhi => paddedLen_of_div (q := 2) (by omega),
    lenFieldAt_eq_paddedLen_sub n, wordCount_eq_paddedLen_div n⟩

/-! ### The length field (R46, R61, R84) -/

theorem toNat_bitLen (n : Nat) : (bitLen n).toNat = 8 * n % 2 ^ 64 :=
  BitVec.toNat_ofNat _ _

/-- Byte `k` of the length field, by the value of the whole field. -/
theorem lenByte_eq_ofNat_mod (n k : Nat) : lenByte n k = BitVec.ofNat 8 (8 * n % 2 ^ 64 / 2 ^ (8 * k)) := by
  rw [← toNat_bitLen, ← Nat.shiftRight_eq_div_pow]
  rfl

/-- The wrap at 2^64 lies above each of the field's eight bytes. -/
theorem toNat_lenByte (n : Nat) (hk : k ≤ 7) : (lenByte n k).toNat = 8 * n / 2 ^ (8 * k) % 2 ^ 8 := by
  have hsplit : (2 : Nat) ^ 64 = 2 ^ (8 * k) * 2 ^ (64 - 8 * k) := by
    rw [← Nat.pow_add]
    congr 1
    omega
  rw [lenByte_eq_ofNat_mod, BitVec.toNat_ofNat, hsplit, Nat.mod_mul_right_div_self]
  exact Nat.mod_mod_of_dvd _ (Nat.pow_dvd_pow 2 (by omega))

theorem lenByte_eq_ofNat (n : Nat) (hk : k ≤ 7) : lenByte n k = BitVec.ofNat 8 (8 * n / 2 ^ (8 * k)) :=
  BitVec.eq_of_toNat_eq ((toNat_lenByte n hk).trans (BitVec.toNat_ofNat _ _).symm)

theorem toNat_bitLen_of_lt (h : n < 2 ^ 61) : (bitLen n).toNat = 8 * n := by
  rw [toNat_bitLen]
  omega

theorem bitLen_add_period (n : Nat) : bitLen (n + 2 ^ 61) = bitLen n := by
  apply BitVec.eq_of_toNat_eq
  rw [toNat_bitLen, toNat_bitLen]
  omega

/-- Settles O18: the values of the field and of its bytes; at 2^61 the field is that of length 0. -/
theorem lengthFieldWraps : Obligations.LengthFieldWraps :=
  fun n => ⟨toNat_bitLen n, toNat_bitLen_of_lt, bitLen_add_period n, bitLen_add_period 0, fun _ => toNat_lenByte n⟩

/-! ### The fields of the padded message (R80) -/

variable {msg : List Byte}

@[simp] theorem lenField_length (n : Nat) : (lenField n).length = 8 := by
  simp [lenField]

@[simp] theorem padMessage_length (msg : List Byte) : (padMessage msg).length = paddedLen msg.length := by
  rw [paddedLen_eq_sum]
  simp only [padMessage, List.length_append, List.length_singleton, List.length_replicate, lenField_length]

/-- The message, then the terminator, then the zero fill with the length field. -/
theorem padMessage_eq_append (msg : List Byte) :
    padMessage msg =
      msg ++ (termByte :: (List.replicate (zeroFill msg.length) fillByte ++ lenField msg.length)) := by
  simp [padMessage]

theorem take_padMessage (msg : List Byte) : (padMessage msg).take msg.length = msg := by
  rw [padMessage_eq_append, List.take_left]

theorem padMessage_getElem?_message {a : Nat} (h : a < msg.length) : (padMessage msg)[a]? = msg[a]? := by
  rw [padMessage_eq_append, List.getElem?_append_left h]

theorem padMessage_getElem?_term (msg : List Byte) : (padMessage msg)[msg.length]? = some termByte := by
  simp [padMessage_eq_append]

theorem padMessage_getElem?_after_term (msg : List Byte) (a : Nat) :
    (padMessage msg)[msg.length + 1 + a]? =
      (List.replicate (zeroFill msg.length) fillByte ++ lenField msg.length)[a]? := by
  rw [padMessage_eq_append, Nat.add_assoc, Nat.add_comm 1 a, List.getElem?_append_right (Nat.le_add_right _ _),
    Nat.add_sub_cancel_left, List.getElem?_cons_succ]

theorem padMessage_getElem?_fill {j : Nat} (h : j < zeroFill msg.length) :
    (padMessage msg)[msg.length + 1 + j]? = some fillByte := by
  rw [padMessage_getElem?_after_term, List.getElem?_append_left (by simpa using h), List.getElem?_replicate_of_lt h]

theorem padMessage_getElem?_len (msg : List Byte) (hk : k ≤ 7) :
    (padMessage msg)[lenFieldAt msg.length + k]? = some (lenByte msg.length k) := by
  have hk' : k < 8 := Nat.lt_succ_of_le hk
  rw [lenFieldAt_eq_sum, Nat.add_assoc, padMessage_getElem?_after_term,
    List.getElem?_append_right (by simp), List.length_replicate, Nat.add_sub_cancel_left]
  simp [lenField, hk']

/-- Settles O19: the four fields, at the indices where they stand. -/
theorem paddedMessageContract : Obligations.PaddedMessageContract := by
  intro msg n m
  refine ⟨padMessage_length msg, paddedLen_mod_four n, take_padMessage msg, padMessage_getElem?_term msg,
    fun a hlo hhi => ?_, fun k hk => ?_⟩
  · have hm : m = n + 1 + zeroFill n + 8 := paddedLen_eq_sum n
    obtain ⟨j, rfl⟩ := Nat.exists_eq_add_of_le hlo
    have hj : j < zeroFill n := by omega
    exact padMessage_getElem?_fill hj
  · rw [← lenByte_eq_ofNat n hk]
    exact padMessage_getElem?_len msg hk

/-- The padded length and the low byte of the length field determine the length: the one gives `n / 4`, the other `n`
mod 32. -/
theorem eq_of_paddedLen_eq_of_lenByte_eq {n₁ n₂ : Nat} (hlen : paddedLen n₁ = paddedLen n₂)
    (hbyte : lenByte n₁ 0 = lenByte n₂ 0) : n₁ = n₂ := by
  have hval := congrArg BitVec.toNat hbyte
  rw [toNat_lenByte n₁ (Nat.zero_le 7), toNat_lenByte n₂ (Nat.zero_le 7)] at hval
  unfold paddedLen at hlen
  omega

/-- R89, for messages of every length: equal buffers have equal lengths, so equal messages. -/
theorem padMessage_injective : Function.Injective padMessage := by
  intro m₁ m₂ h
  have hpadded : paddedLen m₁.length = paddedLen m₂.length := by
    rw [← padMessage_length, ← padMessage_length, h]
  have hat : lenFieldAt m₁.length = lenFieldAt m₂.length := by
    rw [lenFieldAt_eq_paddedLen_sub, lenFieldAt_eq_paddedLen_sub, hpadded]
  have hbyte : lenByte m₁.length 0 = lenByte m₂.length 0 := by
    apply Option.some.inj
    rw [← padMessage_getElem?_len m₁ (Nat.zero_le 7), ← padMessage_getElem?_len m₂ (Nat.zero_le 7), hat, h]
  have hlen : m₁.length = m₂.length := eq_of_paddedLen_eq_of_lenByte_eq hpadded hbyte
  rw [← take_padMessage m₁, ← take_padMessage m₂, hlen, h]

/-- Settles O20: the bound of 2^61 bytes is not needed. -/
theorem paddingIsInjective : Obligations.PaddingIsInjective :=
  fun _ _ _ _ h => padMessage_injective h

end Sys2Proof.Machine
end

section
/-! PROOFS. The single operations of the Padder: the byte each stores, and where it goes on (R85 to R88, R146). -/

namespace Sys2Proof.Machine

variable {s : State} {i : Instr} {a : Nat} {b : Byte}

/-! ### The Padder's rows of the successor table, in codes (R67, R146) -/

theorem positionOf_eq_of_encode {op r : Nibble} (h : encode i = controlWordOf op r) (j c : Nat) :
    positionOf i j c = ⟨op, r, j, c⟩ := by
  rw [positionOf, h, cwOp_controlWordOf, cwR_controlWordOf]

theorem positionOf_padCopy (j c : Nat) : positionOf .padCopy j c = ⟨0x1, 0, j, c⟩ := positionOf_eq_of_encode rfl j c

theorem positionOf_padTerm (j c : Nat) : positionOf .padTerm j c = ⟨0x2, 0, j, c⟩ := positionOf_eq_of_encode rfl j c

theorem positionOf_padZero (j c : Nat) : positionOf .padZero j c = ⟨0x3, 0, j, c⟩ := positionOf_eq_of_encode rfl j c

theorem positionOf_padLen (k : Nibble) (j c : Nat) : positionOf (.padLen k) j c = ⟨0x4, k, j, c⟩ :=
  positionOf_eq_of_encode rfl j c

theorem positionOf_cmpInit (j c : Nat) : positionOf .cmpInit j c = ⟨0x5, 0, j, c⟩ := positionOf_eq_of_encode rfl j c

theorem successor_padCopy (p : Position) (n : Nat) :
    successor .padCopy p n = if p.j + 1 < n then ⟨0x1, 0, p.j + 1, 0⟩ else ⟨0x2, 0, 0, 0⟩ := by
  rw [successor, positionOf_padCopy, positionOf_padTerm]

theorem successor_padTerm (p : Position) (n : Nat) :
    successor .padTerm p n = if 0 < zeroFill n then ⟨0x3, 0, 0, 0⟩ else ⟨0x4, 0, 0, 0⟩ := by
  rw [successor, positionOf_padZero, positionOf_padLen]

theorem successor_padZero (p : Position) (n : Nat) :
    successor .padZero p n = if p.j + 1 < zeroFill n then ⟨0x3, 0, p.j + 1, 0⟩ else ⟨0x4, 0, 0, 0⟩ := by
  rw [successor, positionOf_padZero, positionOf_padLen]

theorem successor_padLen (k : Nibble) (p : Position) (n : Nat) :
    successor (.padLen k) p n = if k.toNat < 7 then ⟨0x4, k + 1, 0, 0⟩ else ⟨0x5, 0, 0, 0⟩ := by
  rw [successor, positionOf_padLen, positionOf_cmpInit]

/-! ### What an operation stores -/

/-- A Padder operation goes on from every state, and stores its byte (R53). -/
theorem PadStore.exec_eq (hs : PadStore s i a b) :
    exec i s = .next { s with pad := Memory.write a b s.pad, pc := successor i s.pc s.n } := by
  cases hs with
  | copy | term | zero => rfl
  | len k hk => exact if_pos hk

/-- The whole effect of a Padder operation: its byte at its index, no other byte of PAD, and no other field but pc. -/
theorem PadStore.exists_next (hs : PadStore s i a b) {p : Position} (hp : successor i s.pc s.n = p) :
    ∃ t, exec i s = .next t ∧ Memory.read? a t.pad = some b ∧
      (∀ x, x ≠ a → Memory.read? x t.pad = Memory.read? x s.pad) ∧ t = { s with pad := t.pad, pc := p } :=
  hp ▸ ⟨_, hs.exec_eq, Memory.read_write_same a b s.pad, fun _ hx => Memory.read_write_other hx b s.pad, rfl⟩

theorem State.msgAt_of_read (h : Memory.read? a s.msg = some b) : s.msgAt a = b := by
  simp [State.msgAt, h]

/-- Settles O21: the byte stored is the one the host wrote, where it wrote one. -/
theorem padCopyStoresMessageByte : Obligations.PadCopyStoresMessageByte := by
  intro s
  obtain ⟨t, hx, hread, hother, ht⟩ := PadStore.copy.exists_next (successor_padCopy s.pc s.n)
  exact ⟨t, hx, hread, fun b hb => hread.trans (congrArg some (State.msgAt_of_read hb)), hother, ht⟩

/-- Settles O22: the effect of a Padder operation, with PAD.TERM's row of the table. -/
theorem padTermStoresTerminator : Obligations.PadTermStoresTerminator :=
  fun s => PadStore.term.exists_next (successor_padTerm s.pc s.n)

/-- Settles O23: the effect of a Padder operation, with PAD.ZERO's row of the table. -/
theorem padZeroStoresFill : Obligations.PadZeroStoresFill :=
  fun s => PadStore.zero.exists_next (successor_padZero s.pc s.n)

theorem exec_padLen_of_not_le {k : Nibble} (hk : ¬ k.toNat ≤ 7) (s : State) :
    exec (.padLen k) s = .refused (.reservedControlWord (encode (.padLen k))) :=
  if_neg hk

/-- Settles O24: the byte by the value of the whole length field. -/
theorem padLenStoresLengthByte : Obligations.PadLenStoresLengthByte := by
  refine ⟨fun s k hk => ?_, fun s k hk => exec_padLen_of_not_le (Nat.not_le.2 hk) s⟩
  have hs := PadStore.len (s := s) k hk
  rw [lenByte_eq_ofNat_mod] at hs
  exact hs.exists_next (successor_padLen k s.pc s.n)

end Sys2Proof.Machine
end

section
/-! PROOFS. O53: the Padder's part of a run. An invariant of `k` bytes stored (`PadRun`), kept by every operation of the
Padder (R80, R89). -/

namespace Sys2Proof.Machine

variable {s u : State} {i : Instr} {a n k : Nat} {b : Byte}

@[simp] theorem State.message_length (s : State) (n : Nat) : (s.message n).length = n := by
  simp [State.message]

theorem State.message_getElem? (s : State) {j : Nat} (h : j < n) : (s.message n)[j]? = some (s.msgAt j) := by
  simp [State.message, h]

/-- On the schedule a Padder operation stores the padded message's own byte (R80, R85 to R88). -/
theorem PadStore.padMessage_getElem? (hs : PadStore s i a b) (h : countersInRange i s.pc s.n = true) :
    (padMessage (s.message s.n))[a]? = some b := by
  have hlen : (s.message s.n).length = s.n := s.message_length s.n
  cases hs with
  | copy =>
    have hj : s.pc.j < s.n := (of_decide_eq_true h).1
    rw [padMessage_getElem?_message (by rwa [hlen]), State.message_getElem? s hj]
  | term => simpa only [hlen] using padMessage_getElem?_term (s.message s.n)
  | zero =>
    have hj : s.pc.j < zeroFill s.n := (of_decide_eq_true h).1
    simpa only [hlen] using padMessage_getElem?_fill (msg := s.message s.n) (by rwa [hlen])
  | len k hk => simpa only [hlen] using padMessage_getElem?_len (s.message s.n) hk

/-- While the padded message is not complete, the operation of the schedule is one of the Padder (R146). -/
theorem exists_padStore (hw : i.wellFormed = true) (h : countersInRange i s.pc s.n = true)
    (hlt : padBytesBefore i s.pc s.n < paddedLen s.n) : ∃ b, PadStore s i (padBytesBefore i s.pc s.n) b := by
  cases i with
  | seqStart => cases h
  | padCopy => exact ⟨_, .copy⟩
  | padTerm => exact ⟨_, .term⟩
  | padZero => exact ⟨_, .zero⟩
  | padLen k => exact ⟨_, .len k (of_decide_eq_true hw)⟩
  | _ => exact absurd hlt (Nat.lt_irrefl _)

/-- The operation that stores the last byte of the padded message is PAD.LEN 7, and CMP.INIT follows it (R146). -/
theorem PadStore.successor_of_last (hs : PadStore s i a b) (h : countersInRange i s.pc s.n = true)
    (hlast : a + 1 = paddedLen s.n) : successor i s.pc s.n = ⟨0x5, 0, 0, 0⟩ := by
  have hm := paddedLen_eq_sum s.n
  cases hs with
  | copy | zero =>
    have hj := (of_decide_eq_true h).1
    omega
  | term => omega
  | len k hk =>
    have hat := lenFieldAt_eq_sum s.n
    rw [successor_padLen, if_neg (by omega)]

/-- State `u` has come from `s`, by an accepted start of `n` bytes and `k` operations of the Padder: PAD holds the first
`k` bytes of the padded message, and above them what it held in `s`. -/
structure PadRun (s : State) (n k : Nat) (u : State) : Prop where
  scheduled : onSchedule u.pc n = true
  progress : padProgress u.pc n = k
  atEnd : k = paddedLen n → u.pc = ⟨0x5, 0, 0, 0⟩
  written : ∀ x, x < k → Memory.read? x u.pad = (padMessage (s.message n))[x]?
  above : ∀ x, k ≤ x → Memory.read? x u.pad = Memory.read? x s.pad
  frame : u = { s with n := n, status := .busy, start := none, pad := u.pad, pc := u.pc }

theorem State.readyFor.step_eq (h : s.readyFor n) :
    step s = .next { s with n := n, status := .busy, start := none, pc := successor .seqStart s.pc n } := by
  obtain ⟨hpc, hb, hstart, hfits⟩ := h
  have hc : s.startClash = false := by simp [State.startClash, hb]
  have hd : decode s.pc.controlWord = .ok .seqStart := by rw [hpc]; exact decode_restPosition
  rw [step_of_decode hc hd, exec, execSeqStart, hstart]
  exact acceptStart_of_fits hb hfits

/-- R141: the accepted start begins the Padder's part of the run. -/
theorem State.readyFor.padRun (h : s.readyFor n) : ∃ u, step s = .next u ∧ PadRun s n 0 u :=
  ⟨_, h.step_eq, {
    scheduled := onSchedule_successor (.inl rfl) nofun
    progress := padProgress_successor_seqStart s.pc n
    atEnd := fun h0 => absurd (twelve_le_paddedLen n) (by omega)
    written := nofun
    above := fun _ _ => rfl
    frame := rfl }⟩

theorem PadRun.startClash_eq_false (h : PadRun s n k u) : u.startClash = false := by
  rw [h.frame]
  rfl

theorem PadRun.n_eq (h : PadRun s n k u) : u.n = n := by
  rw [h.frame]

/-- The Padder does not touch the message it reads. -/
theorem PadRun.message_eq (h : PadRun s n k u) : u.message n = s.message n := by
  rw [h.frame]
  rfl

/-- Storing the next byte brings the run one byte further (R89). -/
theorem PadRun.store (h : PadRun s n k u) (hs : PadStore u i k b) (hc : countersInRange i u.pc u.n = true) :
    PadRun s n (k + 1) { u with pad := Memory.write k b u.pad, pc := successor i u.pc u.n } := by
  obtain rfl : u.n = n := h.n_eq
  exact {
    scheduled := onSchedule_successor (.inr hc) (by rintro rfl; cases hs)
    progress := hs.padProgress_successor hc
    atEnd := hs.successor_of_last hc
    written := fun x hx => by
      rcases Nat.lt_succ_iff_lt_or_eq.1 hx with hlt | rfl
      · rw [Memory.read_write_other (Nat.ne_of_lt hlt), h.written x hlt]
      · rw [Memory.read_write_same, ← h.message_eq, hs.padMessage_getElem? hc]
    above := fun x hx => by
      rw [Memory.read_write_other (Nat.ne_of_gt hx), h.above x (Nat.le_of_succ_le hx)]
    frame := by rw [h.frame] }

/-- Before the padded message is complete, the step is the store of its next byte. -/
theorem PadRun.step_next (h : PadRun s n k u) (hk : k < paddedLen n) :
    ∃ v, step u = .next v ∧ PadRun s n (k + 1) v := by
  obtain ⟨i, hd⟩ := exists_decode_of_onSchedule h.scheduled
  have hc : countersInRange i u.pc u.n = true := by rw [h.n_eq, ← onSchedule_of_decode hd, h.scheduled]
  have hbytes : padBytesBefore i u.pc u.n = k := by rw [h.n_eq, ← padProgress_of_decode hd, h.progress]
  obtain ⟨b, hs⟩ := exists_padStore (wellFormed_of_decode hd) hc (by rwa [hbytes, h.n_eq])
  rw [hbytes] at hs
  exact ⟨_, (step_of_decode h.startClash_eq_false hd).trans hs.exec_eq, h.store hs hc⟩

theorem PadRun.run_next (h : PadRun s n 0 u) (hk : k ≤ paddedLen n) : ∃ v, run k u = .next v ∧ PadRun s n k v := by
  induction k with
  | zero => exact ⟨u, rfl, h⟩
  | succ k ih =>
    obtain ⟨v, hrun, hv⟩ := ih (Nat.le_of_succ_le hk)
    obtain ⟨w, hstep, hw⟩ := hv.step_next hk
    exact ⟨w, (run_add_of_next hrun).trans (run_succ_of_next hstep), hw⟩

/-- R89: after the accepted start and `k` operations of the Padder, `k` bytes of the padded message are stored. -/
theorem State.readyFor.run_padRun (h : s.readyFor n) (hk : k ≤ paddedLen n) :
    ∃ v, run (1 + k) s = .next v ∧ PadRun s n k v := by
  obtain ⟨u, hstep, hu⟩ := h.padRun
  obtain ⟨v, hrun, hv⟩ := hu.run_next hk
  exact ⟨v, by rw [Nat.add_comm, run_succ_of_next hstep, hrun], hv⟩

/-- Settles O53: all m operations of the Padder. -/
theorem padderBuildsPaddedMessage : Obligations.PadderBuildsPaddedMessage := by
  intro s n hready
  obtain ⟨t, hrun, ht⟩ := hready.run_padRun (Nat.le_refl (paddedLen n))
  exact ⟨t, hrun, ht.atEnd rfl, ht.written, ht.above, ht.frame⟩

end Sys2Proof.Machine
end

section
/-! PROOFS. The results of the Compressor, the Finalizer and the Hex Encoder reach neither PAD, nor the word read next, nor
the control flow (R93). -/

namespace Sys2Proof.Machine

variable {s t : State} {i : Instr}

/-- The effects are exactly what the operations answer: the converse of `exec_effect`. -/
theorem Effect.exec_eq (he : Effect i s t) : exec i s = .next t := by
  cases he with
  | rests hi hs => subst hi; simp only [exec, execSeqStart, hs]
  | accepts nHost hi hs hb hfits =>
    subst hi
    simp only [exec, execSeqStart, hs]
    exact acceptStart_of_fits hb hfits
  | stores a b hs => exact hs.exec_eq
  | loads x hi hx => subst hi; exact exec_wrLoad_of_ok hx
  | mixes u hr => cases hr <;> rfl
  | emits hi | ends hi => subst hi; rfl

/-- The state with other contents in the fields at which R93's one-way flow ends: A, B, C, D, W, OUT and the table. -/
def State.withResults (u : Regs) (x : Word) (out : Memory Char) (table : Vector Word 16) (s : State) : State :=
  { s with regs := u, w := x, out := out, rcon := table }

variable {u : Regs} {x : Word} {out : Memory Char} {table : Vector Word 16}

theorem PadStore.withResults {a : Nat} {b : Byte} (hs : PadStore s i a b) :
    PadStore (s.withResults u x out table) i a b := by
  cases hs with
  | copy => exact .copy
  | term => exact .term
  | zero => exact .zero
  | len k hk => exact .len k hk

/-- An operation that writes the registers does so in every state. -/
theorem RegsWrite.exists_of_state {v : Regs} (hr : RegsWrite s i v) (s' : State) : ∃ v', RegsWrite s' i v' := by
  cases hr with
  | init => exact ⟨_, .init⟩
  | round r => exact ⟨_, .round r⟩
  | ffwd => exact ⟨_, .ffwd⟩
  | fin r => exact ⟨_, .fin r⟩

/-- R93: with other results an operation still has its effect, the next state differs in the results alone, and WR.LOAD
loads the same word. -/
theorem Effect.withResults (he : Effect i s t) :
    ∃ u' x' out', Effect i (s.withResults u x out table) (t.withResults u' x' out' table) ∧
      (i = .wrLoad → x' = t.w) := by
  cases he with
  | rests hi hs => exact ⟨u, x, out, .rests hi hs, by rintro rfl; cases hi⟩
  | accepts nHost hi hs hb hfits => exact ⟨u, x, out, .accepts nHost hi hs hb hfits, by rintro rfl; cases hi⟩
  | stores a b hs => exact ⟨u, x, out, .stores a b hs.withResults, by rintro rfl; cases hs⟩
  | loads y hi hy => exact ⟨u, y, out, .loads y hi hy, fun _ => rfl⟩
  | mixes v hr =>
    obtain ⟨v', hr'⟩ := hr.exists_of_state (s.withResults u x out table)
    exact ⟨v', x, out, .mixes v' hr', by rintro rfl; cases hr⟩
  | emits hi => exact ⟨u, x, _, .emits hi, by rintro rfl; cases hi⟩
  | ends hi => exact ⟨u, x, out, .ends hi, by rintro rfl; cases hi⟩

/-- Settles O11: the second state is the first with other results, and so is its next state. -/
theorem nothingFlowsBackward : Obligations.NothingFlowsBackward := by
  intro i s₁ s₂ t₁ hsame h
  obtain ⟨u', x', out', he, hw⟩ :=
    (exec_effect h).withResults (u := s₂.regs) (x := s₂.w) (out := s₂.out) (table := s₂.rcon)
  have hs₂ : s₁.withResults s₂.regs s₂.w s₂.out s₂.rcon = s₂ := hsame.symm
  rw [hs₂] at he
  exact ⟨_, he.exec_eq, rfl, hw⟩

end Sys2Proof.Machine
end

section
/-! PROOFS. The words of a sequence of bytes and of the padded message (R63, R90, R92). -/

namespace Sys2Proof.Machine

variable {b0 b1 b2 b3 : Byte}

/-- R63. -/
theorem wordsOf_length : ∀ l : List Byte, (wordsOf l).length = l.length / 4
  | _ :: _ :: _ :: _ :: rest => by
    rw [wordsOf, List.length_cons, wordsOf_length rest]
    exact (Nat.add_div_right rest.length (by decide)).symm
  | [] | [_] | [_, _] | [_, _, _] => by simp [wordsOf]

/-- R90: word `i` is assembled from the four bytes at index `4*i`. -/
theorem wordsOf_getElem? : ∀ {l : List Byte} {i : Nat}, l[4 * i]? = some b0 → l[4 * i + 1]? = some b1 →
    l[4 * i + 2]? = some b2 → l[4 * i + 3]? = some b3 → (wordsOf l)[i]? = some (le32 b0 b1 b2 b3)
  | _ :: _ :: _ :: _ :: rest, 0, h0, h1, h2, h3 => by
    cases h0; cases h1; cases h2; cases h3
    rfl
  | _ :: _ :: _ :: _ :: rest, i + 1, h0, h1, h2, h3 => wordsOf_getElem? (l := rest) (i := i) h0 h1 h2 h3
  | [], _, _, _, _, h3 | [_], _, _, _, _, h3 | [_, _], _, _, _, _, h3 | [_, _, _], _, _, _, _, h3 => by
    have hlt := (List.getElem?_eq_some_iff.1 h3).1
    simp only [List.length_cons, List.length_nil] at hlt
    omega

/-- Four neighbouring byte fields of a bit vector make up its 32-bit field. -/
theorem le32_extractLsb' {k : Nat} (v : BitVec k) (p : Nat) :
    le32 (v.extractLsb' p 8) (v.extractLsb' (p + 8) 8) (v.extractLsb' (p + 16) 8) (v.extractLsb' (p + 24) 8) =
      v.extractLsb' p 32 := by
  unfold le32
  rw [BitVec.extractLsb'_append_extractLsb'_eq_extractLsb' (show p + 24 = p + 16 + 8 from rfl),
    BitVec.extractLsb'_append_extractLsb'_eq_extractLsb' (show p + 16 = p + 8 + 8 from rfl),
    BitVec.extractLsb'_append_extractLsb'_eq_extractLsb' rfl]

/-- R92: the two words of the length field, its low half for `q = 0` and its high half for `q = 1`. -/
theorem wordsOf_padMessage_lenField (msg : List Byte) {q : Nat} (hq : q ≤ 1) :
    (wordsOf (padMessage msg))[msg.length / 4 + 1 + q]? = some ((bitLen msg.length).extractLsb' (32 * q) 32) := by
  have hbyte : ∀ k, k ≤ 3 → (padMessage msg)[4 * (msg.length / 4 + 1 + q) + k]? =
      some ((bitLen msg.length).extractLsb' (32 * q + 8 * k) 8) := fun k hk => by
    have hat : 4 * (msg.length / 4 + 1 + q) + k = lenFieldAt msg.length + (4 * q + k) := by
      unfold lenFieldAt
      omega
    have hbit : 32 * q + 8 * k = 8 * (4 * q + k) := by omega
    rw [hat, hbit, padMessage_getElem?_len msg (by omega), lenByte]
  rw [← le32_extractLsb']
  exact wordsOf_getElem? (hbyte 0 (by decide)) (hbyte 1 (by decide)) (hbyte 2 (by decide)) (hbyte 3 (by decide))

/-- Settles O28: the words of any sequence of bytes, and the length field that ends the padded message. -/
theorem wordsOfPaddedMessage : Obligations.WordsOfPaddedMessage := by
  intro msg n ws
  have hlen : ws.length = n / 4 + 3 := by
    rw [wordsOf_length, padMessage_length, ← wordCount_eq_paddedLen_div, wordCount]
  exact ⟨hlen, fun _ _ _ _ _ => wordsOf_getElem?, wordsOf_padMessage_lenField msg (Nat.zero_le 1),
    wordsOf_padMessage_lenField msg (Nat.le_refl 1)⟩

end Sys2Proof.Machine
end

section
/-! PROOFS. The Word Reader's operation (R91, R146). -/

namespace Sys2Proof.Machine

theorem successor_wrLoad (p : Position) (n : Nat) : successor .wrLoad p n = ⟨0x7, 0, 0, p.i⟩ :=
  positionOf_eq_of_encode rfl 0 p.i

/-- The whole effect of WR.LOAD where its four bytes can be read. -/
theorem exec_wrLoad_eq {s : State} {x : Word} (h : readPadWord (4 * s.pc.i) s = .ok x) :
    exec .wrLoad s = .next { s with w := x, pc := ⟨0x7, 0, 0, s.pc.i⟩ } := by
  rw [← successor_wrLoad s.pc s.n]
  exact exec_wrLoad_of_ok h

/-- Settles O26: the word is `le32` of the four bytes, by its value. -/
theorem wrLoadAssemblesWord : Obligations.WrLoadAssemblesWord :=
  fun _ b0 b1 b2 b3 h0 h1 h2 h3 => ⟨_, toNat_le32 b0 b1 b2 b3, exec_wrLoad_eq (readPadWord_of_read h0 h1 h2 h3)⟩

end Sys2Proof.Machine
end

section
/-! PROOFS. The selectors bit by bit, and what follows from their bits (R100 to R102). -/

namespace Sys2Proof.Machine

theorem getLsbD_selF (x y z : Word) {i : Nat} (hi : i < 32) :
    (selF x y z).getLsbD i = if x.getLsbD i then y.getLsbD i else z.getLsbD i := by
  simp only [selF, BitVec.getLsbD_or, BitVec.getLsbD_and, BitVec.getLsbD_not, hi]
  cases x.getLsbD i <;> cases y.getLsbD i <;> cases z.getLsbD i <;> rfl

theorem getLsbD_selG (x y z : Word) (i : Nat) :
    (selG x y z).getLsbD i = decide (2 ≤ (x.getLsbD i).toNat + (y.getLsbD i).toNat + (z.getLsbD i).toNat) := by
  simp only [selG, BitVec.getLsbD_or, BitVec.getLsbD_and]
  cases x.getLsbD i <;> cases y.getLsbD i <;> cases z.getLsbD i <;> rfl

theorem getLsbD_selH (x y z : Word) (i : Nat) :
    (selH x y z).getLsbD i =
      decide (((x.getLsbD i).toNat + (y.getLsbD i).toNat + (z.getLsbD i).toNat) % 2 = 1) := by
  simp only [selH, BitVec.getLsbD_xor]
  cases x.getLsbD i <;> cases y.getLsbD i <;> cases z.getLsbD i <;> rfl

theorem selF_zero (y z : Word) : selF 0 y z = z := by
  rw [selF, BitVec.ofNat_eq_ofNat, BitVec.not_zero, BitVec.zero_and, BitVec.zero_or, BitVec.allOnes_and]

theorem selF_allOnes (y z : Word) : selF (BitVec.allOnes 32) y z = y := by
  rw [selF, BitVec.not_allOnes, BitVec.zero_and, BitVec.or_zero, BitVec.allOnes_and]

theorem selG_swap_left (x y z : Word) : selG x y z = selG y x z :=
  BitVec.eq_of_getLsbD_eq fun i _ => by
    rw [getLsbD_selG, getLsbD_selG, Nat.add_comm (x.getLsbD i).toNat]

theorem selG_swap_right (x y z : Word) : selG x y z = selG x z y :=
  BitVec.eq_of_getLsbD_eq fun i _ => by
    rw [getLsbD_selG, getLsbD_selG, Nat.add_right_comm]

/-- Two equal operands are the majority. -/
theorem selG_self_left (x z : Word) : selG x x z = x :=
  BitVec.eq_of_getLsbD_eq fun i _ => by
    rw [getLsbD_selG]
    cases x.getLsbD i <;> cases z.getLsbD i <;> rfl

theorem selG_zero (y z : Word) : selG 0 y z = y &&& z := by
  simp [selG]

theorem selH_swap_left (x y z : Word) : selH x y z = selH y x z :=
  congrArg (· ^^^ z) (BitVec.xor_comm x y)

theorem selH_swap_right (x y z : Word) : selH x y z = selH x z y := by
  rw [selH, selH, BitVec.xor_assoc, BitVec.xor_comm y, BitVec.xor_assoc]

theorem selH_self_left (x z : Word) : selH x x z = z := by
  simp [selH]

/-- Settles O12: each selector by its bits; the three examples are evaluated. -/
theorem selectorFunctions : Obligations.SelectorFunctions := by
  refine ⟨fun x y z i hi => ⟨getLsbD_selF x y z hi, getLsbD_selG x y z i, getLsbD_selH x y z i⟩,
    fun x y z => ?_, by decide, by decide, by decide⟩
  exact ⟨rfl, selF_zero y z, selF_allOnes y z, rfl, selG_swap_left x y z, selG_swap_right x y z, selG_self_left x z,
    selG_zero y z, rfl, selH_swap_left x y z, selH_swap_right x y z, selH_self_left x z⟩

/-- The entry read in a round, as an entry of the table's list (R26). -/
theorem some_rconAt (table : Vector Word 16) (r c : Nat) : some (rconAt table r c) = table.toList[(r + c) % 16]? := by
  have hlt : (r + c) % 16 < 16 := Nat.mod_lt _ (by decide)
  simp [rconAt, hlt]

/-- Settles O29: the index rule for every table, round and offset; the printed columns are evaluated. -/
theorem roundIndicesAndCounts : Obligations.RoundIndicesAndCounts :=
  ⟨some_rconAt, by decide, by decide, by decide, by decide, by decide, by decide, by decide⟩

end Sys2Proof.Machine
end

section
/-! PROOFS. The single operations of the Compressor: the registers each writes, and where it goes on (R104 to R111,
R146). -/

namespace Sys2Proof.Machine

variable {s : State} {ins : Instr} {u : Regs}

/-! ### The Compressor's rows of the successor table, in codes (R67, R146) -/

theorem positionOf_wrLoad (j c : Nat) : positionOf .wrLoad j c = ⟨0x6, 0, j, c⟩ := positionOf_eq_of_encode rfl j c

theorem positionOf_cmpRound (r : Nibble) (j c : Nat) : positionOf (.cmpRound r) j c = ⟨0x7, r, j, c⟩ :=
  positionOf_eq_of_encode rfl j c

theorem positionOf_cmpFfwd (j c : Nat) : positionOf .cmpFfwd j c = ⟨0x8, 0, j, c⟩ := positionOf_eq_of_encode rfl j c

theorem positionOf_finRound (r : Nibble) (j c : Nat) : positionOf (.finRound r) j c = ⟨0x9, r, j, c⟩ :=
  positionOf_eq_of_encode rfl j c

theorem successor_cmpInit (p : Position) (n : Nat) : successor .cmpInit p n = ⟨0x6, 0, 0, 0⟩ := positionOf_wrLoad 0 0

theorem successor_cmpRound (r : Nibble) (p : Position) (n : Nat) :
    successor (.cmpRound r) p n = if r.toNat < 15 then ⟨0x7, r + 1, 0, p.i⟩ else ⟨0x8, 0, 0, p.i⟩ := by
  rw [successor, positionOf_cmpRound, positionOf_cmpFfwd]

theorem successor_cmpFfwd (p : Position) (n : Nat) :
    successor .cmpFfwd p n = if p.i + 1 < wordCount n then ⟨0x6, 0, 0, p.i + 1⟩ else ⟨0x9, 0, 0, 0⟩ := by
  rw [successor, positionOf_wrLoad, positionOf_finRound]

/-! ### What an operation writes -/

/-- An operation that writes the registers goes on from every state, and changes nothing else but pc. -/
theorem RegsWrite.exec_eq (hr : RegsWrite s ins u) {p : Position} (hp : successor ins s.pc s.n = p) :
    exec ins s = .next { s with regs := u, pc := p } :=
  hp ▸ (Effect.mixes u hr).exec_eq

/-- The same for the step, where `ins` is next. -/
theorem RegsWrite.step_eq (hr : RegsWrite s ins u) (hc : s.startClash = false) {j c : Nat}
    (hpc : s.pc = positionOf ins j c) {p : Position} (hp : successor ins s.pc s.n = p) :
    step s = .next { s with regs := u, pc := p } := by
  have hw : ins.wellFormed = true := by cases hr <;> rfl
  have hd : decode s.pc.controlWord = .ok ins := by rw [hpc, decode_positionOf hw]
  exact (step_of_decode hc hd).trans (hr.exec_eq hp)

/-- The entry read in a round, as an entry of the table at a 4-bit index (R26). -/
theorem rconAt_eq_get (table : Vector Word 16) (r c : Nat) : rconAt table r c = table.get (Fin.ofNat 16 (r + c)) := rfl

/-- Settles O30: the IV is the four printed constants. -/
theorem cmpInitLoadsInitialValues : Obligations.CmpInitLoadsInitialValues :=
  fun s => RegsWrite.init.exec_eq (successor_cmpInit s.pc s.n)

/-- Settles O31: the temporaries and the cross-diffusion, written out with the table's entries at 4-bit indices. -/
theorem cmpRoundMixesRegisters : Obligations.CmpRoundMixesRegisters := by
  intro s q r a b c d rcon tA tB tC tD
  have htemps : cmpTemps s.rcon s.w r s.regs = ⟨tA, tB, tC, tD⟩ := by
    simp only [cmpTemps, rconAt_eq_get, Nat.add_zero]
    rfl
  have hx := (RegsWrite.round q).exec_eq (successor_cmpRound q s.pc s.n)
  rw [cmpRound, htemps] at hx
  exact hx

/-- Settles O32: the feed-forward, with CMP.FFWD's row of the table. -/
theorem cmpFfwdMixesWord : Obligations.CmpFfwdMixesWord :=
  fun s => RegsWrite.ffwd.exec_eq (successor_cmpFfwd s.pc s.n)

end Sys2Proof.Machine
end

section
/-! PROOFS. O33: one word's operations. The 16 rounds are a loop over positions that changes A to D alone; WR.LOAD comes
before it and CMP.FFWD after it (R112). -/

namespace Sys2Proof.Machine

variable {s : State}

/-- A loop of `m` steps, the `k`-th at `pos k`, each of which applies `f k` to the registers and changes nothing else
but pc: its first `k` steps fold `f` over 0..k-1. -/
theorem run_regsLoop {pos : Nat → Position} {f : Nat → Regs → Regs} {m : Nat}
    (hstep : ∀ k u, k < m → step { s with regs := u, pc := pos k } = .next { s with regs := f k u, pc := pos (k + 1) })
    (u : Regs) {k : Nat} (hk : k ≤ m) :
    run k { s with regs := u, pc := pos 0 } =
      .next { s with regs := (List.range k).foldl (fun t r => f r t) u, pc := pos k } := by
  induction k with
  | zero => rfl
  | succ k ih =>
    rw [run_add_of_next (ih (Nat.le_of_succ_le hk)), run_succ_of_next (hstep k _ hk), List.range_succ,
      List.foldl_append]
    rfl

/-- Where word `i` stands after `k` of its 16 rounds (R73): at CMP.ROUND k, or at CMP.FFWD. -/
def roundPosition (i k : Nat) : Position :=
  if k < 16 then ⟨0x7, BitVec.ofNat 4 k, 0, i⟩ else ⟨0x8, 0, 0, i⟩

theorem roundPosition_of_lt {k : Nat} (hk : k < 16) (i : Nat) : roundPosition i k = ⟨0x7, BitVec.ofNat 4 k, 0, i⟩ :=
  if_pos hk

theorem toNat_ofNat_of_lt_sixteen {k : Nat} (hk : k < 16) : (BitVec.ofNat 4 k).toNat = k :=
  Nat.mod_eq_of_lt hk

/-- CMP.ROUND's row of the table leads from one position of the loop to the next (R146). -/
theorem successor_roundPosition {k : Nat} (hk : k < 16) (i n : Nat) :
    successor (.cmpRound (BitVec.ofNat 4 k)) (roundPosition i k) n = roundPosition i (k + 1) := by
  have hadd : BitVec.ofNat 4 k + 1 = BitVec.ofNat 4 (k + 1) := (BitVec.ofNat_add k 1).symm
  have hlast : k < 15 ↔ k + 1 < 16 := Nat.succ_lt_succ_iff.symm
  rw [successor_cmpRound, roundPosition_of_lt hk, toNat_ofNat_of_lt_sixteen hk, hadd]
  simp only [hlast, roundPosition]

theorem step_roundPosition (hc : s.startClash = false) (i : Nat) {k : Nat} (u : Regs) (hk : k < 16) :
    step { s with regs := u, pc := roundPosition i k } =
      .next { s with regs := cmpRound s.rcon s.w k u, pc := roundPosition i (k + 1) } := by
  have hpc : roundPosition i k = positionOf (.cmpRound (BitVec.ofNat 4 k)) 0 i := by
    rw [roundPosition_of_lt hk, positionOf_cmpRound]
  have hx := (RegsWrite.round (s := { s with regs := u, pc := roundPosition i k }) (BitVec.ofNat 4 k)).step_eq hc hpc
    (successor_roundPosition hk i s.n)
  rwa [toNat_ofNat_of_lt_sixteen hk] at hx

/-- The 16 rounds of the word in W (R107, R112). -/
theorem run_rounds (hc : s.startClash = false) {i : Nat} (hpc : s.pc = ⟨0x7, 0, 0, i⟩) :
    run 16 s = .next { s with regs := roundsOf s.rcon s.w s.regs, pc := ⟨0x8, 0, 0, i⟩ } := by
  have hloop := run_regsLoop (pos := roundPosition i) (f := cmpRound s.rcon s.w)
    (fun _ u hk => step_roundPosition hc i u hk) s.regs (Nat.le_refl 16)
  rwa [show roundPosition i 0 = s.pc from hpc.symm] at hloop

theorem step_wrLoad {i : Nat} {x : Word} (hc : s.startClash = false) (hpc : s.pc = ⟨0x6, 0, 0, i⟩)
    (hx : readPadWord (4 * i) s = .ok x) : step s = .next { s with w := x, pc := ⟨0x7, 0, 0, i⟩ } := by
  have hd : decode s.pc.controlWord = .ok .wrLoad := by
    rw [hpc, ← positionOf_wrLoad, decode_positionOf rfl]
  obtain rfl : s.pc.i = i := by rw [hpc]
  exact (step_of_decode hc hd).trans (exec_wrLoad_eq hx)

theorem step_cmpFfwd (hc : s.startClash = false) (i : Nat) (u : Regs) :
    step { s with regs := u, pc := ⟨0x8, 0, 0, i⟩ } = .next { s with
      regs := feedForward s.w u
      pc := if i + 1 < wordCount s.n then ⟨0x6, 0, 0, i + 1⟩ else ⟨0x9, 0, 0, 0⟩ } :=
  RegsWrite.ffwd.step_eq (s := { s with regs := u, pc := ⟨0x8, 0, 0, i⟩ }) hc (positionOf_cmpFfwd 0 i).symm
    (successor_cmpFfwd _ _)

/-- What is left of `Absorb` once the word is in W: the 16 rounds and the feed-forward (R112). -/
theorem run_absorb_of_loaded (hc : s.startClash = false) {i : Nat} (hpc : s.pc = ⟨0x7, 0, 0, i⟩) :
    run 17 s = .next { s with
      regs := absorb s.rcon s.regs s.w
      pc := if i + 1 < wordCount s.n then ⟨0x6, 0, 0, i + 1⟩ else ⟨0x9, 0, 0, 0⟩ } :=
  (run_add_of_next (k := 1) (run_rounds hc hpc)).trans (run_succ_of_next (k := 0) (step_cmpFfwd hc i _))

/-- Settles O33: WR.LOAD, then the rounds and the feed-forward of the word it loads. -/
theorem absorbTakesEighteenOperations : Obligations.AbsorbTakesEighteenOperations := by
  intro s i b0 b1 b2 b3 hc hpc h0 h1 h2 h3
  have hload := step_wrLoad hc hpc (readPadWord_of_read h0 h1 h2 h3)
  exact (run_succ_of_next (k := 17) hload).trans
    (run_absorb_of_loaded (s := { s with w := le32 b0 b1 b2 b3, pc := ⟨0x7, 0, 0, i⟩ }) hc rfl)

end Sys2Proof.Machine
end

section
/-! PROOFS. The Finalizer's operation and its 16 rounds: the registers each writes, and where it goes on (R120 to R124,
R146). -/

namespace Sys2Proof.Machine

variable {s : State}

theorem positionOf_hexEmit (j c : Nat) : positionOf .hexEmit j c = ⟨0xA, 0, j, c⟩ := positionOf_eq_of_encode rfl j c

theorem successor_finRound (r : Nibble) (p : Position) (n : Nat) :
    successor (.finRound r) p n = if r.toNat < 15 then ⟨0x9, r + 1, 0, 0⟩ else ⟨0xA, 0, 0, 0⟩ := by
  rw [successor, positionOf_finRound, positionOf_hexEmit]

/-- Settles O34: the eight lines of R121, with the table's entries at 4-bit indices. -/
theorem finRoundUpdatesInOrder : Obligations.FinRoundUpdatesInOrder := by
  intro s q r b c d rcon a1 b1 c1 d1 a2 b2 c2 d2
  have hxor : finStep1 s.rcon r s.regs = ⟨a1, b1, c1, d1⟩ := by
    simp only [finStep1, rconAt_eq_get, Nat.add_zero]
    rfl
  have hx := (RegsWrite.fin q).exec_eq (successor_finRound q s.pc s.n)
  rw [finRound, hxor] at hx
  exact hx

/-! ### The loop of 16 rounds -/

/-- Where the Finalizer stands after `k` of its 16 rounds (R73): at FIN.ROUND k, or at HEX.EMIT. -/
def finPosition (k : Nat) : Position :=
  if k < 16 then ⟨0x9, BitVec.ofNat 4 k, 0, 0⟩ else ⟨0xA, 0, 0, 0⟩

/-- FIN.ROUND's row of the table leads from one position of the loop to the next (R146). -/
theorem successor_finPosition {k : Nat} (hk : k < 16) (n : Nat) :
    successor (.finRound (BitVec.ofNat 4 k)) (finPosition k) n = finPosition (k + 1) := by
  have hadd : BitVec.ofNat 4 k + 1 = BitVec.ofNat 4 (k + 1) := (BitVec.ofNat_add k 1).symm
  have hlast : k < 15 ↔ k + 1 < 16 := Nat.succ_lt_succ_iff.symm
  rw [successor_finRound, toNat_ofNat_of_lt_sixteen hk, hadd]
  simp only [hlast, finPosition]

theorem step_finPosition (hc : s.startClash = false) {k : Nat} (u : Regs) (hk : k < 16) :
    step { s with regs := u, pc := finPosition k } =
      .next { s with regs := finRound s.rcon k u, pc := finPosition (k + 1) } := by
  have hpc : finPosition k = positionOf (.finRound (BitVec.ofNat 4 k)) 0 0 := by
    rw [finPosition, if_pos hk, positionOf_finRound]
  have hx := (RegsWrite.fin (s := { s with regs := u, pc := finPosition k }) (BitVec.ofNat 4 k)).step_eq hc hpc
    (successor_finPosition hk s.n)
  rwa [toNat_ofNat_of_lt_sixteen hk] at hx

/-- Settles O35: the loop of rounds, from its first position to HEX.EMIT. -/
theorem finalizeTakesSixteenOperations : Obligations.FinalizeTakesSixteenOperations := by
  intro s hc hpc
  have hloop := run_regsLoop (pos := finPosition) (f := finRound s.rcon)
    (fun _ u hk => step_finPosition hc u hk) s.regs (Nat.le_refl 16)
  rwa [show finPosition 0 = s.pc from hpc.symm] at hloop

/-! ### The Finalizer can be undone -/

/-- The XOR updates (R121, step 1), undone from D back to A: what a line XORs in is formed from new values and from
registers undone before it, which agree on both sides. -/
theorem finStep1_injective (table : Vector Word 16) (r : Nat) : Function.Injective (finStep1 table r) := by
  rintro ⟨a, b, c, d⟩ ⟨a', b', c', d'⟩ h
  obtain ⟨ha, hb, hc, hd⟩ := Regs.mk.inj h
  obtain rfl : d = d' := by rwa [hc, hb, ha, BitVec.xor_left_inj] at hd
  obtain rfl : c = c' := by rwa [hb, ha, BitVec.xor_left_inj] at hc
  obtain rfl : b = b' := by rwa [ha, BitVec.xor_left_inj] at hb
  obtain rfl : a = a' := by rwa [BitVec.xor_left_inj] at ha
  rfl

/-- The additions (R121, step 2), undone in the same order. -/
theorem finStep2_injective : Function.Injective finStep2 := by
  rintro ⟨a, b, c, d⟩ ⟨a', b', c', d'⟩ h
  obtain ⟨ha, hb, hc, hd⟩ := Regs.mk.inj h
  obtain rfl : d = d' := by rwa [hb, ha, add_left_inj] at hd
  obtain rfl : c = c' := by rwa [ha, add_left_inj] at hc
  obtain rfl : b = b' := by rwa [add_left_inj] at hb
  obtain rfl : a = a' := by rwa [add_left_inj] at ha
  rfl

theorem finRound_injective (table : Vector Word 16) (r : Nat) : Function.Injective (finRound table r) :=
  finStep2_injective.comp (finStep1_injective table r)

/-- Injective maps applied one after the other are injective together. -/
theorem foldl_injective {α β : Type} {f : α → β → β} (hf : ∀ x, Function.Injective (f x)) :
    ∀ l : List α, Function.Injective fun y => l.foldl (fun t x => f x t) y
  | [] => Function.injective_id
  | x :: l => (foldl_injective hf l).comp (hf x)

theorem finalize_injective (table : Vector Word 16) : Function.Injective (finalize table) :=
  foldl_injective (finRound_injective table) (List.range 16)

/-- Settles O36: a round composes two injective steps, and the Finalizer composes 16 rounds. -/
theorem finalizerIsInjective : Obligations.FinalizerIsInjective :=
  fun table _ _ => ⟨fun r h => finRound_injective table r h, fun h => finalize_injective table h⟩

end Sys2Proof.Machine
end

section
/-! PROOFS. The Hex Encoder: the character of each cell (R131), the number the string spells (R134), and with it that
the string determines the registers (R133). -/

namespace Sys2Proof.Machine

/-! ### One digit -/

theorem toNat_nibbleAt (x : Word) (p : Nat) : (nibbleAt x p).toNat = x.toNat / 2 ^ (28 - 4 * p) % 16 := by
  rw [nibbleAt, BitVec.extractLsb'_toNat, Nat.shiftRight_eq_div_pow]

theorem lowerHexDigits_getElem?_toNat : ∀ v : Nibble, lowerHexDigits[v.toNat]? = some (digit v) := by decide

theorem idxOf_digit : ∀ v : Nibble, lowerHexDigits.idxOf (digit v) = v.toNat := by decide

/-! ### The character at an index of the string -/

theorem hex8_length (x : Word) : (hex8 x).length = 8 := rfl

theorem hex8_eq_map (x : Word) : hex8 x = (List.range 8).map fun p => digit (nibbleAt x p) := rfl

theorem hex8_getElem? (x : Word) {p : Nat} (hp : p < 8) : (hex8 x)[p]? = some (digit (nibbleAt x p)) := by
  rw [hex8_eq_map, List.getElem?_map, List.getElem?_range hp, Option.map_some]

/-- Every word takes 8 characters, so word `q`'s begin at index `8*q`. -/
theorem flatMap_hex8_getElem? {x : Word} {p : Nat} (hp : p < 8) :
    ∀ {l : List Word} {q : Nat}, l[q]? = some x → (l.flatMap hex8)[8 * q + p]? = some (digit (nibbleAt x p))
  | y :: l, 0, h => by
    obtain rfl : y = x := Option.some.inj h
    rw [List.flatMap_cons, Nat.mul_zero, Nat.zero_add, List.getElem?_append_left hp]
    exact hex8_getElem? y hp
  | y :: l, q + 1, h => by
    have hat : 8 * (q + 1) + p = (hex8 y).length + (8 * q + p) := by
      rw [hex8_length]
      omega
    rw [List.flatMap_cons, hat, List.getElem?_append_right (Nat.le_add_right _ _), Nat.add_sub_cancel_left]
    exact flatMap_hex8_getElem? hp (l := l) h

theorem hexEncode_eq_flatMap (s : Regs) : hexEncode s = [s.a, s.b, s.c, s.d].flatMap hex8 := by
  simp only [hexEncode, List.flatMap_cons, List.flatMap_nil, List.append_nil, List.append_assoc]

/-- R131: character `8*q + p` is the digit of nibble `p` of register `q`. -/
theorem hexEncode_getElem? (s : Regs) {x : Word} {q p : Nat} (hx : [s.a, s.b, s.c, s.d][q]? = some x) (hp : p < 8) :
    (hexEncode s)[8 * q + p]? = some (digit (nibbleAt x p)) := by
  rw [hexEncode_eq_flatMap]
  exact flatMap_hex8_getElem? hp hx

/-! ### HEX.EMIT -/

theorem successor_hexEmit (p : Position) (n : Nat) : successor .hexEmit p n = ⟨0xB, 0, 0, 0⟩ :=
  positionOf_eq_of_encode rfl 0 0

/-- The whole effect of HEX.EMIT. -/
theorem exec_hexEmit_eq (s : State) :
    exec .hexEmit s =
      .next { s with out := Memory.writeList 0 (hexEncode s.regs) s.out, pc := ⟨0xB, 0, 0, 0⟩ } := by
  rw [(Effect.emits rfl).exec_eq, advance_writeOut_eq, successor_hexEmit]

theorem read_writeList_zero {α : Type} {vs : List α} {m : Memory α} {k : Nat} (hk : k < vs.length) :
    Memory.read? k (Memory.writeList 0 vs m) = vs[k]? := by
  rw [List.getElem?_eq_getElem hk]
  simpa using Memory.read_writeList_inside (a := 0) (m := m) hk

/-- R131: the string in the first 32 cells of OUT, every other cell and every other field but pc as before. -/
theorem exists_next_hexEmit (s : State) :
    ∃ t, exec .hexEmit s = .next t ∧ (∀ k, k < 32 → Memory.read? k t.out = (hexEncode s.regs)[k]?) ∧
      (∀ a, 32 ≤ a → Memory.read? a t.out = Memory.read? a s.out) ∧
      t = { s with out := t.out, pc := ⟨0xB, 0, 0, 0⟩ } := by
  have hexec := exec_hexEmit_eq s
  have hlen := hexEncode_length s.regs
  -- A text of length 32 is all that matters; a variable keeps Lean from evaluating the 32 writes.
  generalize hexEncode s.regs = text at hexec hlen ⊢
  exact ⟨_, hexec, fun k hk => read_writeList_zero (by omega),
    fun a ha => Memory.read_writeList_outside (.inr (by omega)), rfl⟩

/-- Settles O37: the cells hold the string, and its characters are known by register and nibble. -/
theorem hexEmitWritesDigits : Obligations.HexEmitWritesDigits := by
  intro s
  obtain ⟨t, hexec, hcells, habove, ht⟩ := exists_next_hexEmit s
  refine ⟨t, hexec, fun q p hq hp => ?_, habove, ht⟩
  have hx := List.getElem?_eq_getElem (l := [s.regs.a, s.regs.b, s.regs.c, s.regs.d]) hq
  refine ⟨_, hx, ?_⟩
  rw [hcells _ (by omega), hexEncode_getElem? s.regs hx hp, ← toNat_nibbleAt, lowerHexDigits_getElem?_toNat]

/-! ### The number the string spells -/

/-- Reading one more character of a hexadecimal number (R134). -/
def readHexDigit (acc : Nat) (c : Char) : Nat := 16 * acc + lowerHexDigits.idxOf c

@[simp] theorem readHexDigit_digit (acc : Nat) (v : Nibble) : readHexDigit acc (digit v) = 16 * acc + v.toNat := by
  rw [readHexDigit, idxOf_digit]

/-- The first `k` characters of a register spell its `4*k` leading bits, after the number read before them. -/
theorem foldl_readHexDigit_leading (acc : Nat) (x : Word) {k : Nat} (hk : k ≤ 8) :
    ((List.range k).map fun p => digit (nibbleAt x p)).foldl readHexDigit acc =
      acc * 16 ^ k + x.toNat / 2 ^ (32 - 4 * k) := by
  induction k with
  | zero => simp [Nat.div_eq_of_lt x.isLt]
  | succ k ih =>
    have hlead : 32 - 4 * k = 28 - 4 * k + 4 := by omega
    have hnext : 32 - 4 * (k + 1) = 28 - 4 * k := by omega
    have hpow : acc * 16 ^ (k + 1) = 16 * (acc * 16 ^ k) := by ring
    rw [List.range_succ, List.map_append, List.foldl_append, ih (Nat.le_of_succ_le hk), hlead, hnext, Nat.pow_add,
      ← Nat.div_div_eq_div_mul, hpow]
    simp only [List.map_cons, List.map_nil, List.foldl_cons, List.foldl_nil, readHexDigit_digit, toNat_nibbleAt]
    omega

/-- A register's 8 characters append its 32 bits to the number read before them. -/
theorem foldl_readHexDigit_hex8 (acc : Nat) (x : Word) :
    (hex8 x).foldl readHexDigit acc = acc * 2 ^ 32 + x.toNat := by
  rw [hex8_eq_map, foldl_readHexDigit_leading acc x (Nat.le_refl 8), Nat.pow_zero, Nat.div_one,
    show 16 ^ 8 = 2 ^ 32 from rfl]

/-- Settles O39: register after register, the string appends the 32 bits of A, B, C and D. -/
theorem digestStringSpellsRegisters : Obligations.DigestStringSpellsRegisters := by
  intro s
  change (hexEncode s).foldl readHexDigit 0 = _
  simp only [hexEncode, List.foldl_append, foldl_readHexDigit_hex8, toNat_append_eq_add, Nat.zero_mul, Nat.zero_add]

/-! ### The string determines the registers -/

/-- The number a register's characters spell is the register's value. -/
theorem hex8_injective : Function.Injective hex8 := by
  intro x y h
  have hval := congrArg (List.foldl readHexDigit 0) h
  rw [foldl_readHexDigit_hex8, foldl_readHexDigit_hex8] at hval
  exact BitVec.eq_of_toNat_eq (Nat.add_left_cancel hval)

theorem hexEncode_injective : Function.Injective hexEncode := by
  rintro ⟨a, b, c, d⟩ ⟨a', b', c', d'⟩ h
  have hlen : ∀ x y, (hex8 x).length = (hex8 y).length := fun x y => (hex8_length x).trans (hex8_length y).symm
  obtain ⟨habc, hd⟩ := List.append_inj' h (hlen _ _)
  obtain ⟨hab, hc⟩ := List.append_inj' habc (hlen _ _)
  obtain ⟨ha, hb⟩ := List.append_inj' hab (hlen _ _)
  obtain rfl : a = a' := hex8_injective ha
  obtain rfl : b = b' := hex8_injective hb
  obtain rfl : c = c' := hex8_injective hc
  obtain rfl : d = d' := hex8_injective hd
  rfl

/-- Settles O38: the alphabet is the invariant's, and no two registers have the same 8 characters. -/
theorem hexEncodeIsInjective : Obligations.HexEncodeIsInjective :=
  fun s₁ _ => ⟨hexEncode_length s₁, fun _ hc => mem_lowerHexDigits_of_isHexDigit (isHexDigit_of_mem_hexEncode hc),
    hexEncode_injective.eq_iff⟩

end Sys2Proof.Machine
end

section
/-! PROOFS. The successor table in codes (R67, R146), and that every operation sets pc by it. -/

namespace Sys2Proof.Machine

variable {i : Instr} {s t : State}

theorem positionOf_seqStart (j c : Nat) : positionOf .seqStart j c = ⟨0x0, 0, j, c⟩ := positionOf_eq_of_encode rfl j c

theorem successor_seqStart (p : Position) (n : Nat) :
    successor .seqStart p n = if 0 < n then ⟨0x1, 0, 0, 0⟩ else ⟨0x2, 0, 0, 0⟩ := by
  rw [successor, positionOf_padCopy, positionOf_padTerm]

theorem successor_seqDone (p : Position) (n : Nat) : successor .seqDone p n = ⟨0x0, 0, 0, 0⟩ := positionOf_seqStart 0 0

/-- An operation that goes on sets pc by the table; SEQ.START does where a start stands, for the N it latches. -/
theorem Effect.pc_eq (he : Effect i s t) (hstart : i = .seqStart → s.start.isSome) :
    t.pc = successor i s.pc t.n := by
  cases he with
  | rests hi hs =>
    have hsome := hstart hi
    rw [hs] at hsome
    cases hsome
  | accepts nHost hi _ _ _ => subst hi; rfl
  | emits _ => rw [advance_pc, advance_n, writeOut_pc, writeOut_n]
  | _ => rfl

/-- Settles O8: the rows by the table in codes, each under its own condition. -/
theorem successorTable : Obligations.SuccessorTable := by
  refine ⟨?_, fun i s t h hstart => (exec_effect h).pc_eq hstart⟩
  intro p n z m
  have hm : wordCount n = m / 4 := wordCount_eq_paddedLen_div n
  exact ⟨
    fun h => (successor_seqStart p n).trans (if_pos h),
    fun h => (successor_seqStart p n).trans (if_neg (by omega)),
    fun h => (successor_padCopy p n).trans (if_pos h),
    fun h => (successor_padCopy p n).trans (if_neg (by omega)),
    fun h => (successor_padTerm p n).trans (if_pos h),
    fun h => (successor_padTerm p n).trans (if_neg (Nat.not_lt.2 (Nat.le_of_eq h))),
    fun h => (successor_padZero p n).trans (if_pos h),
    fun h => (successor_padZero p n).trans (if_neg (Nat.not_lt.2 (Nat.le_of_eq h.symm))),
    fun r h => (successor_padLen r p n).trans (if_pos h),
    successor_padLen 7 p n,
    successor_cmpInit p n,
    successor_wrLoad p n,
    fun r h => (successor_cmpRound r p n).trans (if_pos h),
    successor_cmpRound 15 p n,
    fun h => (successor_cmpFfwd p n).trans (if_pos (hm ▸ h)),
    fun h => (successor_cmpFfwd p n).trans (if_neg (by omega)),
    fun r h => (successor_finRound r p n).trans (if_pos h),
    successor_finRound 15 p n,
    successor_hexEmit p n,
    successor_seqDone p n⟩

end Sys2Proof.Machine
end

section
/-! PROOFS. The sequencer's own operations SEQ.START and SEQ.DONE, and the block at rest (R141 to R144). -/

namespace Sys2Proof.Machine

variable {s : State} {n c : Nat}

/-- A length fits exactly when no capacity below it is given (R9, R141). -/
theorem fits_iff {cap : Option Nat} : fits cap n = true ↔ ∀ c, cap = some c → n ≤ c := by
  cases cap with
  | none => exact iff_of_true rfl nofun
  | some k => simp [fits]

theorem not_fits_of_lt {cap : Option Nat} (hcap : cap = some c) (hlt : c < n) : ¬ fits cap n = true :=
  fun hfits => Nat.not_le.2 hlt (fits_iff.1 hfits c hcap)

theorem exec_seqStart_of_start (hs : s.start = some n) : exec .seqStart s = acceptStart n s := by
  simp only [exec, execSeqStart, hs]

theorem startClash_iff : s.startClash = true ↔ s.status = .busy ∧ s.start.isSome = true := by
  simp [State.startClash]

theorem startClash_of_start_none (hs : s.start = none) : s.startClash = false := by
  simp [State.startClash, hs]

/-- Settles O7: the step looks for a clash before it looks at pc. -/
theorem startClashIsRefused : Obligations.StartClashIsRefused :=
  fun _ _ hb hs => if_pos (startClash_iff.2 ⟨hb, by rw [hs]; rfl⟩)

/-- Settles O40: the effect of an accepted start, with SEQ.START's row of the table. -/
theorem seqStartAcceptsStart : Obligations.SeqStartAcceptsStart := by
  intro s n hs hrest hfits
  have hb : s.status ≠ .busy := by
    rcases hrest with h | h <;> rw [h] <;> decide
  rw [(Effect.accepts n rfl hs hb (fits_iff.2 hfits)).exec_eq, successor_seqStart]

/-- Settles O41: the two guards of an accepted start, in their order. -/
theorem seqStartRefusals : Obligations.SeqStartRefusals := by
  refine fun s n hs => ⟨fun hb => ?_, fun c hb hcap hlt => ?_⟩
  · rw [exec_seqStart_of_start hs, acceptStart, if_pos hb]
  · rw [exec_seqStart_of_start hs, acceptStart, if_neg hb, if_neg (not_fits_of_lt hcap hlt)]

/-- R144. -/
theorem isFinal_iff : s.isFinal = true ↔ s.pc = restPosition ∧ (s.status = .idle ∨ s.status = .done) :=
  decide_eq_true_iff

/-- R141, log 6: at rest SEQ.START is next, and without a command it changes nothing. -/
theorem step_of_rest (hpc : s.pc = restPosition) (hs : s.start = none) : step s = .next s := by
  have hd : decode s.pc.controlWord = .ok .seqStart := by rw [hpc]; exact decode_restPosition
  exact (step_of_decode (startClash_of_start_none hs) hd).trans (Effect.rests rfl hs).exec_eq

/-- Settles O42: the rest position is (SEQ.START, 0, 0, 0). -/
theorem restingBlockWaits : Obligations.RestingBlockWaits :=
  ⟨fun _ => step_of_rest, fun _ => isFinal_iff⟩

/-- Settles O43: the effect of SEQ.DONE, with its row of the table. -/
theorem seqDoneEndsRun : Obligations.SeqDoneEndsRun := by
  intro s
  rw [(Effect.ends rfl).exec_eq, successor_seqDone]

end Sys2Proof.Machine
end

section
/-! PROOFS. The moves of the host: what each does, where it is refused, and that each keeps the invariant (R140, R143,
R188). -/

namespace Sys2Proof.Machine

variable {s : State} {a n : Nat} {b : Byte}

/-- Settles O49: the invariant under each of the three moves. -/
theorem hostMoveKeepsInvariant : Obligations.HostMoveKeepsInvariant :=
  fun _ _ _ => HostMove.keeps_inv

/-- A start below whose length `a` does not lie leaves MSG[a] free to write (R188). -/
theorem not_lt_start_getD_iff : ¬ a < s.start.getD 0 ↔ ∀ n, s.start = some n → n ≤ a := by
  cases s.start <;> simp

theorem hostWriteMsg_eq (hb : s.status ≠ .busy) (ha : ∀ n, s.start = some n → n ≤ a) :
    hostWriteMsg a b s = .next { s with msg := Memory.write a b s.msg } := by
  rw [hostWriteMsg, if_neg hb, if_neg (not_lt_start_getD_iff.2 ha)]

theorem msgAt_write_same (s : State) (a : Nat) (b : Byte) :
    State.msgAt { s with msg := Memory.write a b s.msg } a = b :=
  State.msgAt_of_read (Memory.read_write_same a b s.msg)

theorem msgAt_write_other (s : State) {x : Nat} (hx : x ≠ a) (b : Byte) :
    State.msgAt { s with msg := Memory.write a b s.msg } x = s.msgAt x := by
  simp only [State.msgAt, Memory.read_write_other hx]

/-- Settles O44: the three outcomes of the write by its two guards. -/
theorem hostWritesMessage : Obligations.HostWritesMessage := by
  refine ⟨fun s a b hb ha => ?_, fun s a b hb => if_pos hb, fun s a n b hb hs hlt => ?_⟩
  · exact ⟨_, hostWriteMsg_eq hb ha, msgAt_write_same s a b, fun _ hx => msgAt_write_other s hx b, rfl⟩
  · have hbelow : a < s.start.getD 0 := by rwa [hs]
    rw [hostWriteMsg, if_neg hb, if_pos hbelow]

/-- Settles O45: the three outcomes of the start by its two guards. -/
theorem hostIssuesStart : Obligations.HostIssuesStart := by
  refine ⟨fun s n hb hfits => ?_, fun s n hb => if_pos hb, fun s n c hb hcap hlt => ?_⟩
  · rw [hostStart, if_neg hb, if_pos (fits_iff.2 hfits)]
  · rw [hostStart, if_neg hb, if_neg (not_fits_of_lt hcap hlt)]

end Sys2Proof.Machine
end

section
/-! PROOFS. The positions of R147's nested loops are those the successor table leads through from SEQ.START to SEQ.DONE
(R73, R146). -/

namespace Sys2Proof.Machine

variable {n : Nat} {p q r : Position} {i : Instr}

/-- The position after `p` in a run for length `n` (R146); a reserved control word has none, and stays. -/
def nextPosition (n : Nat) (p : Position) : Position :=
  match decode p.controlWord with
  | .ok i => successor i p n
  | .error _ => p

theorem nextPosition_of_decode (hd : decode p.controlWord = .ok i) (n : Nat) : nextPosition n p = successor i p n := by
  simp only [nextPosition, hd]

/-- From `p` the table leads through the positions of `l`, in order, to `q`. -/
def LeadsThrough (n : Nat) (p : Position) (l : List Position) (q : Position) : Prop :=
  List.iterate (nextPosition n) p l.length = l ∧ (nextPosition n)^[l.length] p = q

theorem LeadsThrough.nil (n : Nat) (p : Position) : LeadsThrough n p [] p := ⟨rfl, rfl⟩

theorem LeadsThrough.append {l₁ l₂ : List Position} (h₁ : LeadsThrough n p l₁ q) (h₂ : LeadsThrough n q l₂ r) :
    LeadsThrough n p (l₁ ++ l₂) r := by
  obtain ⟨hl₁, rfl⟩ := h₁
  obtain ⟨hl₂, rfl⟩ := h₂
  refine ⟨?_, ?_⟩
  · rw [List.length_append, List.iterate_add, hl₁, hl₂]
  · rw [List.length_append, Nat.add_comm, Function.iterate_add_apply]

/-- One operation leads to its successor. -/
theorem leadsThrough_positionOf (n : Nat) (i : Instr) (j c : Nat) (hw : i.wellFormed = true)
    (hq : successor i (positionOf i j c) n = q) :
    LeadsThrough n (positionOf i j c) [positionOf i j c] q :=
  ⟨rfl, (nextPosition_of_decode (decode_positionOf hw j c) n).trans hq⟩

/-- Where a loop of `m` rounds stands after `k` of them: at the next round's first position, or past the loop. -/
def loopPosition (m : Nat) (body : Nat → Position) (exit : Position) (k : Nat) : Position :=
  if k < m then body k else exit

/-- A loop is passed when each of its rounds leads to the next one (R147). -/
theorem leadsThrough_loop {m : Nat} {body : Nat → Position} {exit : Position} {seg : Nat → List Position}
    (hround : ∀ k, k < m → LeadsThrough n (body k) (seg k) (loopPosition m body exit (k + 1))) :
    LeadsThrough n (loopPosition m body exit 0) ((List.range m).flatMap seg) exit := by
  have hpass : ∀ k, k ≤ m →
      LeadsThrough n (loopPosition m body exit 0) ((List.range k).flatMap seg) (loopPosition m body exit k) := by
    intro k hk
    induction k with
    | zero => exact .nil n _
    | succ k ih =>
      have hat : loopPosition m body exit k = body k := if_pos hk
      rw [List.range_succ, List.flatMap_append, List.flatMap_singleton]
      exact (ih (Nat.le_of_succ_le hk)).append (hat ▸ hround k hk)
  have hwhole := hpass m (Nat.le_refl m)
  rwa [show loopPosition m body exit m = exit from if_neg (Nat.lt_irrefl m)] at hwhole

/-- The same for a loop over one operation. -/
theorem leadsThrough_loop_positionOf (n m : Nat) (ins : Nat → Instr) (j c : Nat → Nat) (exit : Position)
    (hw : ∀ k, k < m → (ins k).wellFormed = true)
    (hnext : ∀ k, k < m → successor (ins k) (positionOf (ins k) (j k) (c k)) n =
      loopPosition m (fun k => positionOf (ins k) (j k) (c k)) exit (k + 1)) :
    LeadsThrough n (loopPosition m (fun k => positionOf (ins k) (j k) (c k)) exit 0)
      ((List.range m).map fun k => positionOf (ins k) (j k) (c k)) exit := by
  rw [List.map_eq_flatMap]
  exact leadsThrough_loop fun k hk => leadsThrough_positionOf n _ _ _ (hw k hk) (hnext k hk)

/-- The rows of an operation with a round index, which counts up to `m` (R146: PAD.LEN, CMP.ROUND, FIN.ROUND). -/
theorem ite_index_eq_loopPosition {m k : Nat} (hk : k < 16) (f : Nibble → Position) (exit : Position) :
    (if (BitVec.ofNat 4 k).toNat < m then f (BitVec.ofNat 4 k + 1) else exit) =
      loopPosition (m + 1) (fun k => f (BitVec.ofNat 4 k)) exit (k + 1) := by
  have hadd : BitVec.ofNat 4 k + 1 = BitVec.ofNat 4 (k + 1) := (BitVec.ofNat_add k 1).symm
  have hlast : k < m ↔ k + 1 < m + 1 := Nat.succ_lt_succ_iff.symm
  rw [toNat_ofNat_of_lt_sixteen hk, hadd]
  simp only [hlast, loopPosition]

/-- Where the Compressor stands after `i` words: at the next word's WR.LOAD, or at FIN.ROUND 0. -/
def wordPosition (n : Nat) : Nat → Position :=
  loopPosition (wordCount n) (positionOf .wrLoad 0) (positionOf (.finRound 0) 0 0)

theorem wordPosition_of_lt {k : Nat} (hk : k < wordCount n) : wordPosition n k = ⟨0x6, 0, 0, k⟩ :=
  (if_pos hk).trans (positionOf_wrLoad 0 k)

theorem wordPosition_wordCount (n : Nat) : wordPosition n (wordCount n) = ⟨0x9, 0, 0, 0⟩ :=
  (if_neg (Nat.lt_irrefl _)).trans (positionOf_finRound 0 0 0)

/-- `PAD n` (R73), from SEQ.START's successor to CMP.INIT. -/
theorem leadsThrough_padPositions (p : Position) (n : Nat) :
    LeadsThrough n (successor .seqStart p n) (padPositions n) (positionOf .cmpInit 0 0) := by
  have hcopy := leadsThrough_loop_positionOf n n (fun _ => .padCopy) id (fun _ => 0) (positionOf .padTerm 0 0)
    (fun _ _ => rfl) (fun _ _ => rfl)
  have hterm := leadsThrough_positionOf n .padTerm 0 0 rfl rfl
  have hzero := leadsThrough_loop_positionOf n (zeroFill n) (fun _ => .padZero) id (fun _ => 0)
    (positionOf (.padLen 0) 0 0) (fun _ _ => rfl) (fun _ _ => rfl)
  have hlen := leadsThrough_loop_positionOf n 8 (fun k => .padLen (BitVec.ofNat 4 k)) (fun _ => 0) (fun _ => 0)
    (positionOf .cmpInit 0 0)
    (fun k hk => decide_eq_true (by rw [toNat_ofNat_of_lt_sixteen (by omega)]; omega))
    (fun k hk => ite_index_eq_loopPosition (by omega) (fun r => positionOf (.padLen r) 0 0) _)
  exact ((hcopy.append hterm).append hzero).append hlen

/-- `ABSORB i` (R73), to where the Compressor stands after word `i`. -/
theorem leadsThrough_absorbPositions (n i : Nat) :
    LeadsThrough n (positionOf .wrLoad 0 i) (absorbPositions i) (wordPosition n (i + 1)) := by
  have hload := leadsThrough_positionOf n .wrLoad 0 i rfl rfl
  have hrounds := leadsThrough_loop_positionOf n 16 (fun k => .cmpRound (BitVec.ofNat 4 k)) (fun _ => 0) (fun _ => i)
    (positionOf .cmpFfwd 0 i) (fun _ _ => rfl)
    (fun k hk => ite_index_eq_loopPosition hk (fun r => positionOf (.cmpRound r) 0 i) _)
  have hffwd := leadsThrough_positionOf n .cmpFfwd 0 i rfl rfl
  exact (hload.append hrounds).append hffwd

/-- `FINALIZE` (R73), from FIN.ROUND 0 to HEX.EMIT. -/
theorem leadsThrough_finalizePositions (n : Nat) :
    LeadsThrough n (positionOf (.finRound 0) 0 0)
      ((List.range 16).map fun r => positionOf (.finRound (BitVec.ofNat 4 r)) 0 0) (positionOf .hexEmit 0 0) :=
  leadsThrough_loop_positionOf n 16 (fun k => .finRound (BitVec.ofNat 4 k)) (fun _ => 0) (fun _ => 0) _
    (fun _ _ => rfl) (fun _ hk => ite_index_eq_loopPosition hk (fun r => positionOf (.finRound r) 0 0) _)

/-- R147: the whole run, from rest to rest. -/
theorem leadsThrough_runPositions (n : Nat) : LeadsThrough n restPosition (runPositions n) restPosition := by
  have hstart := leadsThrough_positionOf n .seqStart 0 0 rfl rfl
  have hpad := leadsThrough_padPositions (positionOf .seqStart 0 0) n
  have hinit := leadsThrough_positionOf n .cmpInit 0 0 (q := wordPosition n 0) rfl
    ((successor_cmpInit _ n).trans (wordPosition_of_lt (wordCount_pos n)).symm)
  have habsorb := leadsThrough_loop fun k (_ : k < wordCount n) => leadsThrough_absorbPositions n k
  have hfin := leadsThrough_finalizePositions n
  have hemit := leadsThrough_positionOf n .hexEmit 0 0 rfl rfl
  have hdone := leadsThrough_positionOf n .seqDone 0 0 rfl rfl
  exact ((((hstart.append hpad).append hinit).append habsorb).append hfin).append (hemit.append hdone)

/-- R73: how many operations a run has, by the count of each OP. -/
theorem runPositions_length (n : Nat) : (runPositions n).length = runLength n := by
  have hcount := countP_op_runPositions (fun _ => true) n
  rw [List.countP_true, Bool.toNat_true] at hcount
  rw [hcount, runLength, paddedLen_eq_sum]
  omega

theorem runLength_eq (n : Nat) : runLength n = paddedLen n + 18 * (paddedLen n / 4) + 20 := by
  rw [runLength, wordCount_eq_paddedLen_div]

/-- Entry `k` of the list is where `k` steps along the table lead. -/
theorem runPositions_getElem? {k : Nat} (hk : k < runLength n) :
    (runPositions n)[k]? = some ((nextPosition n)^[k] restPosition) := by
  rw [← (leadsThrough_runPositions n).1, runPositions_length, List.getElem?_iterate _ _ _ _ hk]

/-- The positions of the run between SEQ.START and SEQ.DONE. -/
def innerPositions (n : Nat) : List Position :=
  padPositions n ++ [positionOf .cmpInit 0 0] ++ (List.range (wordCount n)).flatMap absorbPositions ++
    (List.range 16).map (fun r => positionOf (.finRound (BitVec.ofNat 4 r)) 0 0) ++ [positionOf .hexEmit 0 0]

theorem runPositions_eq_innerPositions (n : Nat) :
    runPositions n = positionOf .seqStart 0 0 :: (innerPositions n ++ [positionOf .seqDone 0 0]) := by
  simp [runPositions, innerPositions]

/-- R75: the sequencer performs two operations of its own in a run, and those are the first and the last. -/
theorem op_of_mem_innerPositions (h : p ∈ innerPositions n) : p.op ≠ 0x0 ∧ p.op ≠ 0xB := by
  have htwo := countP_op_runPositions (fun o => o == 0x0 || o == 0xB) n
  have hnone : (innerPositions n).countP (fun p => p.op == 0x0 || p.op == 0xB) = 0 := by
    rw [runPositions_eq_innerPositions, List.countP_cons, List.countP_append] at htwo
    simpa [encode] using htwo
  simpa using List.countP_eq_zero.1 hnone p h

theorem innerPositions_length (n : Nat) : (innerPositions n).length + 2 = runLength n := by
  rw [← runPositions_length, runPositions_eq_innerPositions]
  simp

/-- Between its first and its last operation a run is at neither SEQ.START nor SEQ.DONE. -/
theorem op_iterate_nextPosition {k : Nat} (hk : k + 2 < runLength n) :
    ((nextPosition n)^[k + 1] restPosition).op ≠ 0x0 ∧ ((nextPosition n)^[k + 1] restPosition).op ≠ 0xB := by
  have hlen := innerPositions_length n
  have hat := runPositions_getElem? (n := n) (k := k + 1) (by omega)
  rw [runPositions_eq_innerPositions, List.getElem?_cons_succ, List.getElem?_append_left (by omega)] at hat
  exact op_of_mem_innerPositions (List.mem_of_getElem? hat)

end Sys2Proof.Machine
end

section
/-! PROOFS. O56: what a run computes. After the Padder, CMP.INIT, the words one after the other, the Finalizer, HEX.EMIT and
SEQ.DONE (R112, R124, R145, R152). -/

namespace Sys2Proof.Machine

variable {s t : State} {n : Nat}

theorem run_one (s : State) : run 1 s = step s := by
  rw [run_succ]
  cases step s <;> rfl

/-- A run that goes on for `j + k` operations goes on for `j`, and then for `k`. -/
theorem exists_run_of_run_add {j k : Nat} (h : run (j + k) s = .next t) :
    ∃ u, run j s = .next u ∧ run k u = .next t := by
  induction j generalizing s with
  | zero => exact ⟨s, rfl, by rwa [Nat.zero_add] at h⟩
  | succ j ih =>
    rw [Nat.add_right_comm, run_succ] at h
    split at h
    · next v hv =>
      obtain ⟨u, hj, hk⟩ := ih h
      exact ⟨u, (run_succ_of_next hv).trans hj, hk⟩
    · cases h
    · cases h

/-- PAD holds the bytes `l`, as many as the padded message has (R80). -/
structure HoldsPadded (l : List Byte) (s : State) : Prop where
  length_eq : l.length = paddedLen s.n
  read_eq : ∀ a, a < paddedLen s.n → Memory.read? a s.pad = l[a]?

variable {l : List Byte}

theorem HoldsPadded.exists_byte (h : HoldsPadded l s) {a : Nat} (ha : a < paddedLen s.n) :
    ∃ b, l[a]? = some b ∧ Memory.read? a s.pad = some b := by
  have hb := List.getElem?_eq_getElem (h.length_eq.symm ▸ ha)
  exact ⟨_, hb, (h.read_eq a ha).trans hb⟩

/-- R63. -/
theorem HoldsPadded.wordsOf_length (h : HoldsPadded l s) : (wordsOf l).length = wordCount s.n := by
  rw [Machine.wordsOf_length, h.length_eq, wordCount_eq_paddedLen_div]

/-- R112: from the first WR.LOAD, with the bytes `l` in PAD, `18*i` operations absorb the first `i` words of `l`. -/
theorem run_absorbWords (hc : s.startClash = false) (hpc : s.pc = wordPosition s.n 0)
    (hl : HoldsPadded l s) {i : Nat} (hi : i ≤ wordCount s.n) :
    ∃ x, run (18 * i) s = .next { s with
      w := x
      regs := ((wordsOf l).take i).foldl (absorb s.rcon) s.regs
      pc := wordPosition s.n i } := by
  induction i with
  | zero => exact ⟨s.w, by rw [← hpc]; rfl⟩
  | succ i ih =>
    obtain ⟨x, hrun⟩ := ih (Nat.le_of_succ_le hi)
    have hm := paddedLen_eq_four_mul_wordCount s.n
    obtain ⟨b0, hl0, hr0⟩ := hl.exists_byte (a := 4 * i) (by omega)
    obtain ⟨b1, hl1, hr1⟩ := hl.exists_byte (a := 4 * i + 1) (by omega)
    obtain ⟨b2, hl2, hr2⟩ := hl.exists_byte (a := 4 * i + 2) (by omega)
    obtain ⟨b3, hl3, hr3⟩ := hl.exists_byte (a := 4 * i + 3) (by omega)
    refine ⟨le32 b0 b1 b2 b3, ?_⟩
    rw [Nat.mul_succ, run_add_of_next hrun, List.take_add_one, wordsOf_getElem? hl0 hl1 hl2 hl3, List.foldl_append]
    exact absorbTakesEighteenOperations _ i b0 b1 b2 b3 hc (wordPosition_of_lt hi) hr0 hr1 hr2 hr3

/-- R112: all words. -/
theorem run_compress (hc : s.startClash = false) (hpc : s.pc = ⟨0x5, 0, 0, 0⟩) (hl : HoldsPadded l s) :
    ∃ x, run (1 + 18 * wordCount s.n) s = .next { s with
      w := x
      regs := compress s.rcon (wordsOf l)
      pc := ⟨0x9, 0, 0, 0⟩ } := by
  have hinit : step s = .next { s with regs := iv, pc := wordPosition s.n 0 } := by
    rw [wordPosition_of_lt (wordCount_pos s.n)]
    exact RegsWrite.init.step_eq hc (hpc.trans (positionOf_cmpInit 0 0).symm) (successor_cmpInit s.pc s.n)
  obtain ⟨x, hrun⟩ := run_absorbWords (s := { s with regs := iv, pc := wordPosition s.n 0 }) hc rfl
    ⟨hl.length_eq, hl.read_eq⟩ (Nat.le_refl _)
  have htake : (wordsOf l).take (wordCount s.n) = wordsOf l :=
    List.take_of_length_le (Nat.le_of_eq hl.wordsOf_length)
  refine ⟨x, ?_⟩
  rw [htake, wordPosition_wordCount] at hrun
  exact (run_add_of_next ((run_one s).trans hinit)).trans hrun

theorem mapM_range_eq_take {α : Type} {l : List α} {f : Nat → Option α} {k : Nat} (hk : k ≤ l.length)
    (hf : ∀ i, i < k → f i = l[i]?) : (List.range k).mapM f = some (l.take k) := by
  induction k with
  | zero => rfl
  | succ k ih =>
    rw [List.range_succ, List.mapM_append, ih (Nat.le_of_succ_le hk) fun i hi => hf i (Nat.lt_succ_of_lt hi),
      List.take_add_one, List.mapM_cons, List.mapM_nil, hf k (Nat.lt_succ_self k), List.getElem?_eq_getElem hk]
    rfl

/-- R44, R140: while STATUS is DONE the host reads the string that OUT holds. -/
theorem hostReadDigest_of_done {text : List Char} (hdone : s.status = .done) (hlen : text.length = 32)
    (hout : ∀ k, k < 32 → Memory.read? k s.out = text[k]?) : hostReadDigest s = some text := by
  have hread := mapM_range_eq_take (l := text) (f := fun p => hostReadOut p s) (Nat.le_of_eq hlen.symm)
    fun k hk => (hostReadOut_of_done hdone k).trans (hout k hk)
  rwa [List.take_of_length_le (Nat.le_of_eq hlen)] at hread

/-- HEX.EMIT and SEQ.DONE: the block rests, and the host reads the string of the registers (R131, R142). -/
theorem run_hexEmit_seqDone (hc : s.startClash = false) (hpc : s.pc = ⟨0xA, 0, 0, 0⟩) :
    ∃ t, run 2 s = .next t ∧ t.status = .done ∧ t.pc = restPosition ∧
      hostReadDigest t = some (hexEncode s.regs) := by
  obtain ⟨u, hexec, hcells, -, hu⟩ := exists_next_hexEmit s
  have hemit : step s = .next u :=
    (step_of_decode hc (by rw [hpc]; exact decode_positionOf (i := .hexEmit) rfl 0 0)).trans hexec
  have hcu : u.startClash = false := by rw [hu]; exact hc
  have hdone := (step_of_decode hcu (by rw [hu]; exact decode_positionOf (i := .seqDone) rfl 0 0)).trans
    (seqDoneEndsRun u)
  exact ⟨_, (run_succ_of_next hemit).trans (run_succ_of_next hdone), rfl, rfl,
    hostReadDigest_of_done rfl (hexEncode_length s.regs) hcells⟩

/-- R112, R124, R130: from CMP.INIT, with the bytes `l` in PAD, to the end of the run. -/
theorem run_of_padded (hc : s.startClash = false) (hpc : s.pc = ⟨0x5, 0, 0, 0⟩) (hl : HoldsPadded l s) :
    ∃ t, run (1 + 18 * wordCount s.n + 18) s = .next t ∧ t.status = .done ∧ t.pc = restPosition ∧
      hostReadDigest t = some (hexEncode (finalize s.rcon (compress s.rcon (wordsOf l)))) := by
  obtain ⟨x, hcompress⟩ := run_compress hc hpc hl
  have hfinalize := finalizeTakesSixteenOperations
    { s with w := x, regs := compress s.rcon (wordsOf l), pc := ⟨0x9, 0, 0, 0⟩ } hc rfl
  obtain ⟨t, hrest, hend⟩ := run_hexEmit_seqDone (s := { s with
    w := x
    regs := finalize s.rcon (compress s.rcon (wordsOf l))
    pc := ⟨0xA, 0, 0, 0⟩ }) hc rfl
  exact ⟨t, (run_add_of_next hcompress).trans ((run_add_of_next (k := 2) hfinalize).trans hrest), hend⟩

/-- R145, R152: a run comes to its end in `runLength n` operations, with the digest in OUT. -/
theorem State.readyFor.run_next (h : s.readyFor n) :
    ∃ t, run (runLength n) s = .next t ∧ t.status = .done ∧ t.pc = restPosition ∧
      hostReadDigest t = some (cipherA128 s.rcon (s.message n)) := by
  obtain ⟨u, hpadder, hu⟩ := h.run_padRun (Nat.le_refl (paddedLen n))
  obtain rfl : u.n = n := hu.n_eq
  obtain ⟨t, hrest, hend⟩ := run_of_padded hu.startClash_eq_false (hu.atEnd rfl)
    ⟨by rw [padMessage_length, State.message_length], hu.written⟩
  have hrcon : u.rcon = s.rcon := by rw [hu.frame]
  rw [hrcon] at hend
  have hlen : runLength u.n = 1 + paddedLen u.n + (1 + 18 * wordCount u.n + 18) := by
    unfold runLength
    omega
  refine ⟨t, ?_, hend⟩
  rw [hlen, run_add_of_next hpadder, hrest]

end Sys2Proof.Machine
end

section
/-! PROOFS. O54, O56, O57: a run passes the positions of the schedule with STATUS BUSY until its last operation, and its
result is the digest of the message (R144, R147, R150, R152). -/

namespace Sys2Proof.Machine

variable {s u v : State} {n k : Nat} {p : Position} {i : Instr}

/-- In the run of a message of `n` bytes, at position `p`. -/
structure InRun (n : Nat) (p : Position) (u : State) : Prop where
  pc_eq : u.pc = p
  n_eq : u.n = n
  busy : u.status = .busy
  start_eq : u.start = none

theorem State.readyFor.inRun (h : s.readyFor n) (hst : step s = .next u) :
    InRun n (nextPosition n restPosition) u := by
  obtain rfl := Host.Outcome.next.inj (h.step_eq.symm.trans hst)
  exact ⟨(nextPosition_of_decode decode_restPosition n).symm, rfl, rfl, rfl⟩

/-- Every operation but the sequencer's own moves pc alone among the control fields (R148). -/
theorem controlAfter_of_ne (h₁ : i ≠ .seqStart) (h₂ : i ≠ .seqDone) (p : Position) (n : Nat) (status : Status)
    (start : Option Nat) : controlAfter i p n status start = (successor i p n, n, status, start) := by
  cases i with
  | seqStart => exact absurd rfl h₁
  | seqDone => exact absurd rfl h₂
  | _ => rfl

/-- OP of a position is that of the operation next at it (R65). -/
theorem op_of_decode (hd : decode p.controlWord = .ok i) : p.op = cwOp (encode i) := by
  rw [encode_of_decode hd, Position.controlWord, cwOp_controlWordOf]

/-- A step of the run that is not its last one leads along the table (R146). -/
theorem InRun.step (h : InRun n p u) (h₁ : p.op ≠ 0x0) (h₂ : p.op ≠ 0xB) (hst : step u = .next v) :
    InRun n (nextPosition n p) v := by
  obtain ⟨rfl, rfl, hb, hs⟩ := h
  obtain ⟨-, i, hd, hx⟩ := step_next hst
  have hcontrol := (exec_effect hx).control_eq
  have hstart : i ≠ .seqStart := by rintro rfl; exact h₁ (op_of_decode hd)
  have hdone : i ≠ .seqDone := by rintro rfl; exact h₂ (op_of_decode hd)
  rw [controlAfter_of_ne hstart hdone] at hcontrol
  simp only [Prod.mk.injEq] at hcontrol
  obtain ⟨hpc, hn, hvb, hvs⟩ := hcontrol
  exact ⟨hpc.trans (nextPosition_of_decode hd u.n).symm, hn, hvb.trans hb, hvs.trans hs⟩

/-- Until its last operation the run follows the table from SEQ.START on. -/
theorem State.readyFor.inRun_of_run (h : s.readyFor n) (hk : k + 1 < runLength n) (hrun : run (k + 1) s = .next u) :
    InRun n ((nextPosition n)^[k + 1] restPosition) u := by
  induction k generalizing u with
  | zero => exact h.inRun ((run_one s).symm.trans hrun)
  | succ k ih =>
    obtain ⟨v, hprev, hlast⟩ := exists_run_of_run_add hrun
    obtain ⟨h₁, h₂⟩ := op_iterate_nextPosition hk
    rw [Function.iterate_succ_apply']
    exact (ih (Nat.lt_of_succ_lt hk) hprev).step h₁ h₂ ((run_one v).symm.trans hlast)

/-- No operation of a run stops. -/
theorem State.readyFor.exists_run (h : s.readyFor n) (hk : k ≤ runLength n) : ∃ u, run k s = .next u := by
  obtain ⟨t, hrun, -⟩ := h.run_next
  rw [← Nat.add_sub_of_le hk] at hrun
  obtain ⟨u, hu, -⟩ := exists_run_of_run_add hrun
  exact ⟨u, hu⟩

/-- Settles O54: the list by the table, and the run by the table. -/
theorem runFollowsSchedule : Obligations.RunFollowsSchedule := by
  refine ⟨fun n => (runPositions_length n).trans (runLength_eq n), fun s n k p h hp => ?_⟩
  have hk : k < runLength n := by
    rw [← runPositions_length]
    exact (List.getElem?_eq_some_iff.1 hp).1
  rw [runPositions_getElem? hk] at hp
  obtain rfl := Option.some.inj hp
  obtain ⟨u, hrun⟩ := h.exists_run (Nat.le_of_lt hk)
  refine ⟨u, hrun, ?_⟩
  cases k with
  | zero =>
    obtain rfl := Host.Outcome.next.inj hrun
    obtain ⟨hpc, -⟩ := h
    exact hpc
  | succ k => exact (h.inRun_of_run hk hrun).pc_eq

theorem InRun.isFinal_eq_false (h : InRun n p u) : u.isFinal = false := by
  simp [State.isFinal, h.busy]

/-- Settles O56: the run is in progress until its last operation, and that one ends it with the digest. -/
theorem runComputesDigest : Obligations.RunComputesDigest := by
  intro s n h len
  have hlen : len = runLength n := (runLength_eq n).symm
  rw [hlen]
  refine ⟨fun k hpos hk => ?_, ?_⟩
  · obtain ⟨j, rfl⟩ := Nat.exists_eq_succ_of_ne_zero (Nat.ne_of_gt hpos)
    obtain ⟨u, hrun⟩ := h.exists_run (Nat.le_of_lt hk)
    have hu := h.inRun_of_run hk hrun
    exact ⟨u, hrun, hu.busy, hu.isFinal_eq_false⟩
  · obtain ⟨t, hrun, hdone, hrest, hread⟩ := h.run_next
    exact ⟨t, hrun, hdone, isFinal_iff.2 ⟨hrest, .inr hdone⟩, hread⟩

theorem State.message_congr {s₁ s₂ : State} (h : ∀ a, a < n → s₁.msgAt a = s₂.msgAt a) :
    s₁.message n = s₂.message n :=
  List.map_congr_left fun a ha => h a (List.mem_range.1 ha)

/-- Settles O57: both runs end with the digest of the same table and message. -/
theorem runsAreIndependent : Obligations.RunsAreIndependent := by
  intro s₁ s₂ n h₁ h₂ htable hmsg
  obtain ⟨t₁, hrun₁, -, -, hread₁⟩ := h₁.run_next
  obtain ⟨t₂, hrun₂, -, -, hread₂⟩ := h₂.run_next
  rw [runLength_eq] at hrun₁ hrun₂
  rw [← htable, ← State.message_congr hmsg] at hread₂
  exact ⟨t₁, t₂, _, hrun₁, hrun₂, hread₁, hread₂⟩

end Sys2Proof.Machine
end

section
/-! PROOFS. O51: a reachable state meets the invariant, so it goes on. O25: where an operation, the step and a move of the
host stop, each by its own guards (R163, U5 to U10, R188). -/

namespace Sys2Proof.Machine

variable {s : State} {i : Instr} {k : Nibble} {a n : Nat} {b : Byte} {f : Fault} {r : Refusal}

/-- Settles O51: every reachable state meets the invariant. -/
theorem reachableStateSteps : Obligations.ReachableStateSteps :=
  fun s hr => invariantStateSteps s hr.inv

/-! ### A start and its two guards -/

/-- The start of `n` bytes is refused for `r`: a run is in progress, or else the message does not fit (R141, U6, U10). -/
def StartRefused (s : State) (n : Nat) (r : Refusal) : Prop :=
  (s.status = .busy ∧ r = .startWhileBusy) ∨
    (s.status ≠ .busy ∧ (∃ c, s.msgCap = some c ∧ c < n) ∧ r = .startOverCapacity n)

theorem not_fits_iff {cap : Option Nat} : ¬ fits cap n = true ↔ ∃ c, cap = some c ∧ c < n := by
  simp [fits_iff]

/-- What SEQ.START and the host's start share: the two guards, before a next state `t`. -/
theorem guardedStart_eq_refused_iff {t : State} :
    (if s.status = .busy then .refused .startWhileBusy
      else if fits s.msgCap n then .next t else .refused (.startOverCapacity n) : Outcome) = .refused r ↔
      StartRefused s n r := by
  rw [StartRefused, ← not_fits_iff]
  split_ifs with hb hfits
  · simp [hb, @eq_comm _ r]
  · simp [hb, hfits]
  · simp [hb, hfits, @eq_comm _ r]

theorem acceptStart_eq_refused_iff : acceptStart n s = .refused r ↔ StartRefused s n r :=
  guardedStart_eq_refused_iff

theorem hostStart_eq_refused_iff : hostStart n s = .refused r ↔ StartRefused s n r :=
  guardedStart_eq_refused_iff

theorem acceptStart_ne_fault : acceptStart n s ≠ .fault f := by
  unfold acceptStart
  split_ifs <;> nofun

theorem hostStart_ne_fault : hostStart n s ≠ .fault f := by
  unfold hostStart
  split_ifs <;> nofun

/-! ### Where an operation faults -/

/-- U9: the word's read faults exactly at the first of its four bytes that holds no value. -/
theorem readPadWord_eq_error_iff :
    readPadWord a s = .error f ↔
      ∃ q, q < 4 ∧ f = .padUnwritten (a + q) ∧ Memory.read? (a + q) s.pad = none ∧
        ∀ p, p < q → (Memory.read? (a + p) s.pad).isSome := by
  constructor
  · intro h
    by_cases hex : ∃ q, q < 4 ∧ Memory.read? (a + q) s.pad = none
    · obtain ⟨hq, hnone⟩ := Nat.find_spec hex
      have hsome : ∀ p, p < Nat.find hex → (Memory.read? (a + p) s.pad).isSome := fun p hp =>
        Option.isSome_iff_ne_none.2 fun hp' => Nat.find_min hex hp ⟨hp.trans hq, hp'⟩
      rw [readPadWord_of_unwritten hq hsome hnone] at h
      exact ⟨_, hq, (Except.error.inj h).symm, hnone, hsome⟩
    · have hall : ∀ q, q < 4 → ∃ b, Memory.read? (a + q) s.pad = some b := fun q hq =>
        Option.ne_none_iff_exists'.1 fun hnone => hex ⟨q, hq, hnone⟩
      obtain ⟨b0, h0⟩ := hall 0 (by decide)
      obtain ⟨b1, h1⟩ := hall 1 (by decide)
      obtain ⟨b2, h2⟩ := hall 2 (by decide)
      obtain ⟨b3, h3⟩ := hall 3 (by decide)
      cases (readPadWord_of_read h0 h1 h2 h3).symm.trans h
  · rintro ⟨q, hq, rfl, hnone, hsome⟩
    exact readPadWord_of_unwritten hq hsome hnone

theorem exec_wrLoad_eq_fault_iff : exec .wrLoad s = .fault f ↔ readPadWord (4 * s.pc.i) s = .error f := by
  cases hx : readPadWord (4 * s.pc.i) s with
  | ok x => simp [exec_wrLoad_of_ok hx]
  | error g => simp [exec_wrLoad_of_error hx]

theorem exec_wrLoad_ne_refused : exec .wrLoad s ≠ .refused r := by
  cases hx : readPadWord (4 * s.pc.i) s with
  | ok x => simp [exec_wrLoad_of_ok hx]
  | error g => simp [exec_wrLoad_of_error hx]

/-- Only WR.LOAD reads PAD, and only a read of PAD faults. -/
theorem eq_wrLoad_of_exec_fault (h : exec i s = .fault f) : i = .wrLoad := by
  cases i with
  | wrLoad => rfl
  | seqStart =>
    simp only [exec, execSeqStart] at h
    split at h
    · cases h
    · exact absurd h acceptStart_ne_fault
  | padLen k =>
    simp only [exec, execPadLen] at h
    split at h <;> cases h
  | _ => cases h

theorem exec_eq_fault_iff :
    exec i s = .fault f ↔
      i = .wrLoad ∧ ∃ q, q < 4 ∧ f = .padUnwritten (4 * s.pc.i + q) ∧ Memory.read? (4 * s.pc.i + q) s.pad = none ∧
        ∀ p, p < q → (Memory.read? (4 * s.pc.i + p) s.pad).isSome := by
  rw [← readPadWord_eq_error_iff, ← exec_wrLoad_eq_fault_iff]
  constructor
  · intro h
    obtain rfl := eq_wrLoad_of_exec_fault h
    exact ⟨rfl, h⟩
  · rintro ⟨rfl, h⟩
    exact h

/-! ### Where an operation is refused -/

/-- R68, R70: an index above 7 is no operation. -/
theorem exec_padLen_eq_refused_iff :
    exec (.padLen k) s = .refused r ↔ 7 < k.toNat ∧ r = .reservedControlWord (0x4#4 ++ k) := by
  by_cases hk : k.toNat ≤ 7
  · have hex : exec (.padLen k) s = storePadByte (.padLen k) (lenFieldAt s.n + k.toNat) (lenByte s.n k.toNat) s :=
      if_pos hk
    simp [hex, storePadByte_eq, Nat.not_lt.2 hk]
  · have hex : exec (.padLen k) s = .refused (.reservedControlWord (0x4#4 ++ k)) := if_neg hk
    simp [hex, Nat.not_le.1 hk, @eq_comm _ r]

theorem exec_seqStart_eq_refused_iff :
    exec .seqStart s = .refused r ↔ ∃ n, s.start = some n ∧ StartRefused s n r := by
  cases hs : s.start with
  | none => simp [exec, execSeqStart, hs]
  | some n => simp [exec_seqStart_of_start hs, acceptStart_eq_refused_iff]

theorem exec_eq_refused_iff :
    exec i s = .refused r ↔
      (∃ k : Nibble, i = .padLen k ∧ 7 < k.toNat ∧ r = .reservedControlWord (0x4#4 ++ k)) ∨
        (i = .seqStart ∧ ∃ n, s.start = some n ∧ StartRefused s n r) := by
  cases i with
  | padLen k => simp [exec_padLen_eq_refused_iff]
  | seqStart => simp [exec_seqStart_eq_refused_iff]
  | wrLoad => simp [exec_wrLoad_ne_refused]
  | _ => exact iff_of_false nofun (by simp)

/-! ### Where the step stops -/

/-- R143, U6: the step looks for a clash first. -/
theorem step_of_startClash (hc : s.startClash = true) : step s = .refused .startWhileBusy := if_pos hc

theorem step_eq_fault_iff :
    step s = .fault f ↔ s.startClash = false ∧ decode s.pc.controlWord = .ok .wrLoad ∧ exec .wrLoad s = .fault f := by
  constructor
  · intro h
    cases hc : s.startClash with
    | true => cases (step_of_startClash hc).symm.trans h
    | false =>
      cases hd : decode s.pc.controlWord with
      | error e => cases (step_of_decode_error hc hd).symm.trans h
      | ok i =>
        rw [step_of_decode hc hd] at h
        obtain rfl := eq_wrLoad_of_exec_fault h
        exact ⟨rfl, rfl, h⟩
  · rintro ⟨hc, hd, h⟩
    exact (step_of_decode hc hd).trans h

/-- Of the operations pc can name, only SEQ.START is refused, and with no clash only for a start above MSG_CAP. -/
theorem exec_eq_refused_iff_of_decode (hc : s.startClash = false) (hd : decode s.pc.controlWord = .ok i) :
    exec i s = .refused r ↔ i = .seqStart ∧ s.status ≠ .busy ∧
      ∃ n c, s.start = some n ∧ s.msgCap = some c ∧ c < n ∧ r = .startOverCapacity n := by
  rw [exec_eq_refused_iff]
  constructor
  · rintro (⟨k, rfl, hk, -⟩ | ⟨hi, n, hs, ⟨hb, -⟩ | ⟨hb, ⟨c, hcap, hlt⟩, hr⟩⟩)
    · exact absurd (of_decide_eq_true (wellFormed_of_decode hd)) (Nat.not_le.2 hk)
    · rw [startClash_iff.2 ⟨hb, by rw [hs]; rfl⟩] at hc
      cases hc
    · exact ⟨hi, hb, n, c, hs, hcap, hlt, hr⟩
  · rintro ⟨hi, hb, n, c, hs, hcap, hlt, hr⟩
    exact .inr ⟨hi, n, hs, .inr ⟨hb, ⟨c, hcap, hlt⟩, hr⟩⟩

theorem step_eq_refused_iff :
    step s = .refused r ↔
      (s.startClash = true ∧ r = .startWhileBusy) ∨
      (s.startClash = false ∧ reservedWord s.pc.controlWord ∧ r = .reservedControlWord s.pc.controlWord) ∨
      (decode s.pc.controlWord = .ok .seqStart ∧ s.status ≠ .busy ∧
        ∃ n c, s.start = some n ∧ s.msgCap = some c ∧ c < n ∧ r = .startOverCapacity n) := by
  cases hc : s.startClash with
  | true =>
    have hb : s.status = .busy := (startClash_iff.1 hc).1
    simp [step_of_startClash hc, hb, @eq_comm _ r]
  | false =>
    cases hd : decode s.pc.controlWord with
    | error e => simp [step_of_decode_error hc hd, reservedWord_of_decode_error hd, @eq_comm _ r]
    | ok i =>
      rw [step_of_decode hc hd, exec_eq_refused_iff_of_decode hc hd]
      simp [not_reservedWord_of_decode hd]

/-! ### Where a move of the host stops -/

theorem lt_start_getD_iff : a < s.start.getD 0 ↔ ∃ n, s.start = some n ∧ a < n := by
  cases s.start <;> simp

theorem hostWriteMsg_eq_refused_iff :
    hostWriteMsg a b s = .refused r ↔
      (s.status = .busy ∧ r = .msgWriteWhileBusy) ∨
        (s.status ≠ .busy ∧ (∃ n, s.start = some n ∧ a < n) ∧ r = .msgWriteAfterStart a) := by
  rw [← lt_start_getD_iff]
  unfold hostWriteMsg
  split_ifs with hb hlt
  · simp [hb, @eq_comm _ r]
  · simp [hb, hlt, @eq_comm _ r]
  · simp [hb, hlt]

theorem hostWriteMsg_ne_fault : hostWriteMsg a b s ≠ .fault f := by
  unfold hostWriteMsg
  split_ifs <;> nofun

theorem HostMove.apply_ne_fault (mv : HostMove) : mv.apply s ≠ .fault f := by
  cases mv with
  | writeMsg a b => exact hostWriteMsg_ne_fault
  | start n => exact hostStart_ne_fault
  | reset => nofun

theorem HostMove.apply_eq_refused_iff {mv : HostMove} :
    mv.apply s = .refused r ↔
      (∃ a b, mv = .writeMsg a b ∧
        ((s.status = .busy ∧ r = .msgWriteWhileBusy) ∨
          (s.status ≠ .busy ∧ (∃ n, s.start = some n ∧ a < n) ∧ r = .msgWriteAfterStart a))) ∨
      (∃ n, mv = .start n ∧ StartRefused s n r) := by
  cases mv with
  | writeMsg a b => simp [HostMove.apply, hostWriteMsg_eq_refused_iff]
  | start n => simp [HostMove.apply, hostStart_eq_refused_iff]
  | reset => simp [HostMove.apply]

/-- Settles O25: the exact stops of the operations, of the step and of the host's moves. -/
theorem stopsAreTheListedOnes : Obligations.StopsAreTheListedOnes :=
  ⟨fun _ _ _ => exec_eq_fault_iff, fun _ _ _ => exec_eq_refused_iff, fun _ _ => step_eq_fault_iff,
    fun _ _ => step_eq_refused_iff, fun mv _ _ => mv.apply_ne_fault, fun _ _ _ => HostMove.apply_eq_refused_iff⟩

end Sys2Proof.Machine
end

section
/-! PROOFS. The block after reset: where it rests, and what the host reads there (R34, R44, R180). -/

namespace Sys2Proof.Machine

variable {s : State} {a p : Nat}

/-- R44, U8, log 12: outside DONE the host reads no defined value in OUT. -/
theorem hostReadOut_of_not_done (h : s.status ≠ .done) : hostReadOut p s = none := if_neg h

/-! ### A block after a first reset -/

variable (table : Vector Word 16) (cap : Option Nat) (epoch : Nat)

@[simp] theorem afterReset_status : (State.afterReset table cap epoch).status = .idle := rfl

@[simp] theorem afterReset_pc : (State.afterReset table cap epoch).pc = restPosition := rfl

theorem afterReset_isFinal : (State.afterReset table cap epoch).isFinal = true :=
  isFinal_iff.2 ⟨afterReset_pc table cap epoch, .inl (afterReset_status table cap epoch)⟩

/-- Logs 4, 5, 15: no address space lists a cell as written. -/
theorem afterReset_unwritten :
    Memory.read? a (State.afterReset table cap epoch).msg = none ∧
      Memory.read? a (State.afterReset table cap epoch).pad = none ∧
      Memory.read? a (State.afterReset table cap epoch).out = none := ⟨rfl, rfl, rfl⟩

theorem hostReadOut_afterReset : hostReadOut p (State.afterReset table cap epoch) = none :=
  hostReadOut_of_not_done (by simp)

/-- Settles O46: a reset leaves a state after a first reset, with the table and the capacity it found. -/
theorem resetRestsTheSequencer : Obligations.ResetRestsTheSequencer := by
  refine ⟨fun s => ?_, rfl, rfl, rfl⟩
  simp only [applyReset_eq_afterReset]
  exact ⟨afterReset_status _ _ _, afterReset_pc _ _ _, afterReset_isFinal _ _ _, rfl, rfl, rfl,
    fun _ => afterReset_unwritten _ _ _, fun _ => hostReadOut_afterReset _ _ _⟩

end Sys2Proof.Machine
end
